-- ==== Sys2Proof/Word.lean ====
section
/-! DEFINITION. The plainest value types of the block (spec/00_scope.md rule R7): bytes, byte sequences, unsigned and
two's-complement integers of the widths that cross its interface (spec/10_state.md section 2). -/

namespace Sys2Proof

/-- A byte, 8 bits (R7). -/
abbrev Byte := BitVec 8

/-- `u4`, a nibble (R7). -/
abbrev U4 := BitVec 4

/-- `u8` as a logical field (R16): the same eight bits as a byte. -/
abbrev U8 := BitVec 8

/-- `u16` (R7). -/
abbrev U16 := BitVec 16

/-- `u32` (R7). -/
abbrev U32 := BitVec 32

/-- `i8`, a signed 8-bit two's-complement integer (R7, R16). -/
abbrev I8 := Int8

/-- `i64`, a signed 64-bit two's-complement integer (R7, R16). -/
abbrev I64 := Int64

/-- A byte sequence of any length; element 0 is the first byte on the wire or in the buffer (R7). -/
abbrev Bytes := List Byte

/-- A raw byte array of exactly `n` bytes (R13, R14, R16). -/
abbrev ByteArr (n : Nat) := Vector Byte n

end Sys2Proof
end

