-- ==== Sys2Proof/Config.lean ====
section
/-! DEFINITION. What an implementation fixes: the sizes and hardwired constants of spec/00_scope.md section 4 and
spec/10_state.md rule R12, and the record of open parameters (section 4, second table) with their defaults. -/

namespace Sys2Proof

/-- `MAC_BYTES`. -/
abbrev macBytes : Nat := 6
/-- `CID_BYTES`. -/
abbrev cidBytes : Nat := 8
/-- `ETH_HDR_BYTES`. -/
abbrev ethHdrBytes : Nat := 14
/-- `PTP_HDR_BYTES`. -/
abbrev ptpHdrBytes : Nat := 34
/-- `ORIGIN_TS_BYTES`. -/
abbrev originTsBytes : Nat := 10
/-- `SYNC_BYTES`. -/
abbrev syncBytes : Nat := 44
/-- `FRAME_BYTES`: the one frame length (R50). -/
abbrev frameBytes : Nat := 58
/-- `TS_ENTRIES`: entries a timestamping record must hold (R103). -/
abbrev tsEntries : Nat := 3
/-- `TS_SELECT`: index of the raw-hardware entry (R104). -/
abbrev tsSelect : Nat := 2

/-- `ETHERTYPE_PTP` (R12). -/
abbrev etherTypePtp : U16 := 0x88F7
/-- `PTP_PEER_MCAST`, 01:80:C2:00:00:0E, byte 0 first (R7, R12). -/
abbrev ptpPeerMcast : ByteArr 6 := #v[0x01, 0x80, 0xC2, 0x00, 0x00, 0x0E]

/-- The byte order of a multi-byte word. -/
inductive ByteOrder where
  | little
  | big
deriving DecidableEq, Repr

/-- The open parameters of spec/92_eei_decisions.md ("Open parameters, gathered") with the defaults of
spec/00_scope.md section 4. The proof fields are the constraints 92 asks of a parameter record: every width is a
positive number of bytes, `ANC_ALIGN >= 1`, `RX_MAX >= 59`. Latency is left out (R151, log 19). -/
structure Params where
  /-- `HOST_BYTE_ORDER` (D7): used by no rule. -/
  hostByteOrder : ByteOrder := .little
  /-- `RX_MAX` (D9): `none` is unbounded. -/
  rxMax : Option Nat := none
  /-- `ANC_MAX` (D12): `none` is unbounded. -/
  ancMax : Option Nat := none
  /-- `ANC_LEN_BYTES` (D12). -/
  ancLenBytes : Nat := 8
  /-- `ANC_LEVEL_BYTES` (D12). -/
  ancLevelBytes : Nat := 4
  /-- `ANC_TYPE_BYTES` (D12). -/
  ancTypeBytes : Nat := 4
  /-- `ANC_ALIGN` (D12). -/
  ancAlign : Nat := 8
  /-- `ANC_ORDER` (D12, D13). -/
  ancOrder : ByteOrder := .little
  /-- `TS_LEVEL` (D11). -/
  tsLevel : Int := 1
  /-- `TS_TYPE` (D11). -/
  tsType : Int := 37
  /-- `TS_SEC_BYTES` (D13). -/
  tsSecBytes : Nat := 8
  /-- `TS_NSEC_BYTES` (D13). -/
  tsNsecBytes : Nat := 8
  rxMax_ge : 59 ≤ rxMax.getD 59 := by decide
  ancLenBytes_pos : 0 < ancLenBytes := by decide
  ancLevelBytes_pos : 0 < ancLevelBytes := by decide
  ancTypeBytes_pos : 0 < ancTypeBytes := by decide
  ancAlign_pos : 0 < ancAlign := by decide
  tsSecBytes_pos : 0 < tsSecBytes := by decide
  tsNsecBytes_pos : 0 < tsNsecBytes := by decide
deriving DecidableEq, Repr

/-- `ANC_HDR_BYTES = ANC_LEN_BYTES + ANC_LEVEL_BYTES + ANC_TYPE_BYTES`. -/
def Params.ancHdrBytes (P : Params) : Nat := P.ancLenBytes + P.ancLevelBytes + P.ancTypeBytes

/-- `TS_ENTRY_BYTES = TS_SEC_BYTES + TS_NSEC_BYTES`. -/
def Params.tsEntryBytes (P : Params) : Nat := P.tsSecBytes + P.tsNsecBytes

/-- The parameter record with every default of spec/00_scope.md section 4. -/
def Params.default : Params where
  hostByteOrder := .little
  rxMax := none
  ancMax := none
  ancLenBytes := 8
  ancLevelBytes := 4
  ancTypeBytes := 4
  ancAlign := 8
  ancOrder := .little
  tsLevel := 1
  tsType := 37
  tsSecBytes := 8
  tsNsecBytes := 8

end Sys2Proof
end

