-- ==== Sys2Proof/Syntax.lean ====
section
/-! DEFINITION. The logical data types that cross the interface (spec/10_state.md section 2), the request
`{op, operands}` (rule R23) and `Instr`, the five operations of spec/opcode_table.json with their operands. -/

namespace Sys2Proof

/-- R13: six raw bytes (`MAC_BYTES`). -/
abbrev MacAddress := ByteArr 6

/-- R14: eight raw bytes (`CID_BYTES`). -/
abbrev ClockIdentity := ByteArr 8

/-- R15. -/
structure PortIdentity where
  clockIdentity : ClockIdentity
  portNumber : U16
deriving DecidableEq, Repr

/-- R16, the fields in the source's order. -/
structure PtpHeader where
  messageType : U4
  majorSdoId : U4
  versionPtp : U4
  minorVersionPtp : U4
  messageLength : U16
  domainNumber : U8
  minorSdoId : U8
  /-- Two raw bytes. -/
  flags : ByteArr 2
  correctionField : I64
  /-- `mts`: four raw bytes, no number (R16, R34, D7). -/
  messageTypeSpecific : ByteArr 4
  sourcePortIdentity : PortIdentity
  sequenceId : U16
  controlField : U8
  logMessagePeriod : I8
deriving DecidableEq, Repr

/-- R17. The range of `nanoseconds` is not enforced. -/
structure OriginTimestamp where
  secondsMsb : U16
  secondsLsb : U32
  nanoseconds : U32
deriving DecidableEq, Repr

/-- R18. -/
structure SyncMessage where
  header : PtpHeader
  originTimestamp : OriginTimestamp
deriving DecidableEq, Repr

/-- R19. -/
structure EthernetFrame where
  destination : MacAddress
  source : MacAddress
  etherType : U16
  payload : SyncMessage
deriving DecidableEq, Repr

/-- The operand forms of R23. A byte sequence is carried as its bytes, its length with them (R67). -/
inductive Operands where
  | mac (mac : MacAddress)
  | frame (frame : EthernetFrame)
  | bytes (bytes : Bytes)
  | macSeq (source : MacAddress) (sequenceId : U16)
deriving DecidableEq, Repr

/-- A request as the host presents it (R23): the 3-bit operation code and the typed operands (R65, R67). -/
structure Request where
  op : BitVec 3
  operands : Operands
deriving DecidableEq, Repr

/-- The operations, one constructor per row of the table, each with its operands (R23, R65). -/
inductive Instr where
  | derive (mac : MacAddress)
  | encode (frame : EthernetFrame)
  | decode (bytes : Bytes)
  | extract (ancillary : Bytes)
  | buildSync (source : MacAddress) (sequenceId : U16)
deriving DecidableEq, Repr

end Sys2Proof
end

