-- ==== Sys2Proof/WellFormed.lean ====
section
/-! DEFINITION. Which instructions a host can present under a parameter record. Every field of every operand has
exactly its width by type (spec/10_state.md R25, spec/41_codec.md R88); what is left to check is the two size bounds
(spec/93_implementation_defined.md S13, spec/92_eei_decisions.md D9, D12). -/

namespace Sys2Proof

/-- Why an instruction cannot be presented. -/
inductive IllFormed where
  /-- A DECODE operand longer than `RX_MAX` (S13, D9). -/
  | overRxMax
  /-- An EXTRACT operand longer than `ANC_MAX` (D12). -/
  | overAncMax
deriving DecidableEq, Repr

/-- Is a length within an optional bound? `none` is unbounded. -/
def withinMax (bound : Option Nat) (n : Nat) : Bool :=
  match bound with
  | none => true
  | some m => decide (n ≤ m)

/-- The check of an instruction: `none` when it can be presented, else the reason it cannot. -/
def Instr.illFormed (P : Params) (i : Instr) : Option IllFormed :=
  match i with
  | .derive _ => none
  | .encode _ => none
  | .decode b => if withinMax P.rxMax b.length then none else some .overRxMax
  | .extract a => if withinMax P.ancMax a.length then none else some .overAncMax
  | .buildSync _ _ => none

/-- An instruction the host can present. -/
abbrev Instr.WellFormed (P : Params) (i : Instr) : Prop := i.illFormed P = none

end Sys2Proof
end

