-- ==== Sys2Proof/Decode.lean ====
section
/-! DEFINITION. From a request to an instruction and back (spec/30_encoding.md section 3, rules R65, R67, R68). The
spec defines no bit layout for a request beyond its 3-bit code (R67), so the code is what is decoded and the operands
are carried as typed values (log 1). -/

namespace Sys2Proof

/-- The five operations without their operands (R65). -/
inductive Op where
  | derive
  | encode
  | decode
  | extract
  | buildSync
deriving DecidableEq, Repr

/-- Why a request selects no instruction. -/
inductive RequestReject where
  /-- A reserved code, 5 to 7 (R68). -/
  | reservedOperation (op : BitVec 3)
  /-- Operands that are not of the operation's type (R23). -/
  | operandsOfAnotherType (op : Op)
deriving DecidableEq, Repr

/-- The table of R65, from the code. -/
def opOfCode (code : BitVec 3) : Except RequestReject Op :=
  match code.toNat with
  | 0 => .ok .derive
  | 1 => .ok .encode
  | 2 => .ok .decode
  | 3 => .ok .extract
  | 4 => .ok .buildSync
  | _ => .error (.reservedOperation code)

/-- An operation with operands of its type (R23). -/
def instrOf (op : Op) (operands : Operands) : Except RequestReject Instr :=
  match op, operands with
  | .derive, .mac m => .ok (.derive m)
  | .encode, .frame f => .ok (.encode f)
  | .decode, .bytes b => .ok (.decode b)
  | .extract, .bytes a => .ok (.extract a)
  | .buildSync, .macSeq m n => .ok (.buildSync m n)
  | op, _ => .error (.operandsOfAnotherType op)

/-- The instruction a request stands for; the code is looked at first. -/
def decodeRequest (q : Request) : Except RequestReject Instr :=
  match opOfCode q.op with
  | .error e => .error e
  | .ok op => instrOf op q.operands

/-- The table of R65, to the code. -/
def codeOfOp (op : Op) : BitVec 3 :=
  match op with
  | .derive => 0b000#3
  | .encode => 0b001#3
  | .decode => 0b010#3
  | .extract => 0b011#3
  | .buildSync => 0b100#3

/-- The operation of an instruction. -/
def Instr.op (i : Instr) : Op :=
  match i with
  | .derive _ => .derive
  | .encode _ => .encode
  | .decode _ => .decode
  | .extract _ => .extract
  | .buildSync _ _ => .buildSync

/-- The operands of an instruction. -/
def Instr.operands (i : Instr) : Operands :=
  match i with
  | .derive m => .mac m
  | .encode f => .frame f
  | .decode b => .bytes b
  | .extract a => .bytes a
  | .buildSync m n => .macSeq m n

/-- The request that stands for an instruction: the encoder. -/
def encodeRequest (i : Instr) : Request := { op := codeOfOp i.op, operands := i.operands }

/-- A MAC address of zeros. -/
def zeroMac : MacAddress := #v[0, 0, 0, 0, 0, 0]

/-- The logical frame whose every field is zero. -/
def zeroFrame : EthernetFrame where
  destination := zeroMac
  source := zeroMac
  etherType := 0
  payload :=
    { header :=
        { messageType := 0, majorSdoId := 0, versionPtp := 0, minorVersionPtp := 0, messageLength := 0,
          domainNumber := 0, minorSdoId := 0, flags := #v[0, 0], correctionField := 0,
          messageTypeSpecific := #v[0, 0, 0, 0],
          sourcePortIdentity := { clockIdentity := #v[0, 0, 0, 0, 0, 0, 0, 0], portNumber := 0 },
          sequenceId := 0, controlField := 0, logMessagePeriod := 0 }
      originTimestamp := { secondsMsb := 0, secondsLsb := 0, nanoseconds := 0 } }

/-- Operands of the type a code asks for, every bit zero: a byte sequence has length zero. The opcode table gives a
request's operands no bits, so a table word says nothing of them (log 14). -/
def zeroOperands (code : BitVec 3) : Operands :=
  match code.toNat with
  | 0 => .mac zeroMac
  | 1 => .frame zeroFrame
  | 2 => .bytes []
  | 3 => .bytes []
  | _ => .macSeq zeroMac 0

/-- The request a table word stands for: bits 2 to 0 are the code (mask 0x7), the operands are zeros (log 14). -/
def requestOfTableWord (nbits w : Nat) : Request :=
  let code := BitVec.ofNat 3 (w % 2 ^ nbits)
  { op := code, operands := zeroOperands code }

/-- The instruction the decoder reads from a word of spec/opcode_table.json. -/
def decodeTableWord (nbits w : Nat) : Option Instr :=
  match decodeRequest (requestOfTableWord nbits w) with
  | .ok i => some i
  | .error _ => none

end Sys2Proof
end

