-- ==== Sys2Proof/Machine/State.lean ====
section
/-! DEFINITION. The results an operation gives (spec/10_state.md R20 to R23), the host's actions
(spec/70_reset_and_hazards.md sections 1 and 2), the reasons a step can stop, and the state of one block with its
host's remaining actions and the responses given. The block itself keeps nothing between transactions (R10, R11, R26):
the one field the spec gives it is the transaction in progress; the other three are the model's own (logs 2, 5, 6). -/

namespace Sys2Proof.Machine

/-- R20: the members are signed integers of `8*TS_SEC_BYTES` and `8*TS_NSEC_BYTES` bits; the widths are parameters, so
the members are exact integers here (log 13). -/
structure HardwareTimestamp where
  seconds : Int
  nanoseconds : Int
deriving DecidableEq, Repr

/-- R21: one tagged ancillary record; the tag is the pair (level, type) of signed integers (log 13). -/
structure AncRecord where
  level : Int
  type : Int
  payload : Bytes
deriving DecidableEq, Repr

/-- R22: the one error of DECODE. It carries no payload. -/
inductive DecodeError where
  | sizeMismatch
deriving DecidableEq, Repr

/-- R22: the two errors of EXTRACT. They carry no payload. -/
inductive TimestampError where
  | shortRecord
  | missing
deriving DecidableEq, Repr

/-- R125: every error the block can report, by the operation that raises it. -/
inductive OpError where
  | decode (e : DecodeError)
  | timestamp (e : TimestampError)
deriving DecidableEq, Repr

/-- The result of a response whose status is OK (R23). -/
inductive Results where
  | identity (cid : ClockIdentity)
  | bytes (bytes : Bytes)
  | frame (frame : EthernetFrame)
  | timestamp (ts : HardwareTimestamp)
deriving DecidableEq, Repr

/-- A response (R23, R129). The error form has no result field at all. Its 2-bit status code is `Response.status`. -/
inductive Response where
  | ok (results : Results)
  | error (e : OpError)
deriving DecidableEq, Repr

/-- What the host does, one action a step (logs 2, 3). -/
inductive HostAction where
  /-- Present a request; it waits here while the block is busy (R143 H6, log 8). -/
  | request (q : Request)
  /-- Reset the block (R140, R141). -/
  | reset
  /-- Present nothing for one step. -/
  | wait
deriving DecidableEq, Repr

/-- The block has no trap and no fault: an error is a result in the response (R129, R130), so there is no reason to
fault (log 22). Nothing raises it; that is safe. -/
inductive Fault where
deriving DecidableEq, Repr

/-- Why a step has no meaning. -/
inductive Refusal where
  /-- Raised by `exec`'s arms for an instruction without a meaning; no arm does. Safe. -/
  | notModelled (mnemonic : String)
  /-- Raised by `serve` for a request that selects no instruction: a reserved code (R68: "A model refuses such a
  request"), or operands not of the operation's type, which R23 gives no meaning (log 9). Safe: no response is claimed. -/
  | noInstruction (why : RequestReject)
  /-- Raised by `serve` for a byte sequence over `RX_MAX` or `ANC_MAX`: it "cannot be presented" (S13, log 10). Safe. -/
  | notPresentable (why : IllFormed)
  /-- Raised by EXTRACT for a buffer that is not well framed (R109: "A model refuses such an input", log 12). Safe. -/
  | illFramedAncillary
deriving DecidableEq, Repr

/-- One block, what its host will still do, and what it has answered. -/
structure State where
  /-- The parameter record the model takes as an argument (spec/00_scope.md section 4, log 6). No step changes it. -/
  params : Params
  /-- The transaction in progress (R26, R141): the request taken and not yet answered. -/
  inProgress : Option Request
  /-- The host's remaining actions, next first (log 2). -/
  host : List HostAction
  /-- The responses given, oldest first: what a run leaves behind (R152, log 5). -/
  responses : List Response
deriving DecidableEq, Repr

/-- After reset: no transaction in progress, nothing else to give a value to (R26, R140); the parameters at their
defaults, no host action and no response (logs 2, 5, 6). -/
def State.reset : State where
  params := Params.default
  inProgress := none
  host := []
  responses := []

end Sys2Proof.Machine
end

