-- ==== Sys2Proof/Machine/Ops.lean ====
section
/-! DEFINITION. The named operations everything else is written over: byte-sequence access and byte order
(spec/00_scope.md R7, spec/20_memory.md), and the transaction operations: taking a request, giving a response, raising an
error, being reset (spec/60_exceptions.md section 2, spec/70_reset_and_hazards.md section 1). -/

namespace Sys2Proof.Machine

/-- `MemRead(buf, off, n) = buf[off..off+n]` (R7); every use is guarded by `off + n <= len(buf)`. -/
def memRead (buf : Bytes) (off n : Nat) : Bytes := (buf.drop off).take n

/-- `buf[i]` (R7), used only below the length. -/
def byteAt (buf : Bytes) (i : Nat) : Byte := buf.getD i 0

/-- `MemRead` into a raw array of `n` bytes (R32), used only where `off + n <= len(buf)`. -/
def readArr (buf : Bytes) (off n : Nat) : ByteArr n := Vector.ofFn fun k => byteAt buf (off + k)

/-- `be_N(b)`: `b[0]` most significant (R7). -/
def fromBE : Bytes → Nat
  | [] => 0
  | b :: bs => b.toNat * 256 ^ bs.length + fromBE bs

/-- `le_N(b)`: `b[0]` least significant (R7). -/
def fromLE : Bytes → Nat
  | [] => 0
  | b :: bs => b.toNat + 256 * fromLE bs

/-- `to_be_N(v)` as `n = N/8` bytes (R7). -/
def toBE : Nat → Nat → Bytes
  | 0, _ => []
  | n + 1, v => BitVec.ofNat 8 (v / 256 ^ n) :: toBE n v

/-- `to_le_N(v)` as `n = N/8` bytes (R7). -/
def toLE : Nat → Nat → Bytes
  | 0, _ => []
  | n + 1, v => BitVec.ofNat 8 v :: toLE n (v / 256)

/-- `ord_N(b)` under a byte order (R7, R36). -/
def fromOrd (order : ByteOrder) (b : Bytes) : Nat :=
  match order with
  | .little => fromLE b
  | .big => fromBE b

/-- The inverse of `ord_N`, as `n = N/8` bytes. -/
def toOrd (order : ByteOrder) (n v : Nat) : Bytes :=
  match order with
  | .little => toLE n v
  | .big => toBE n v

/-- `as_signed_N(u)` (R7). -/
def asSigned (N u : Nat) : Int := if u < 2 ^ (N - 1) then (u : Int) else (u : Int) - 2 ^ N

/-- `as_unsigned_N(s) = s mod 2^N` (R7). -/
def asUnsigned (N : Nat) (s : Int) : Nat := (s % 2 ^ N).toNat

/-- The least multiple of `m` not less than `x` (R70). -/
def roundUp (x m : Nat) : Nat := (x + (m - 1)) / m * m

/-- Give a response to the transaction in progress, which ends it (R23, R39, R132). Nothing else changes (R10). -/
def State.respond (s : State) (r : Response) : State :=
  { s with responses := s.responses ++ [r], inProgress := none }

/-- `Ok(v)`: respond with status OK and the results. -/
def State.answer (s : State) (v : Results) : State := s.respond (.ok v)

/-- `raise <Error>`: the error is the response and there is no other result, no trap entry, nothing saved (R7, R129).
There is no return from it: the transaction is over and nothing is to be restored (R132). -/
def State.raiseError (s : State) (e : OpError) : State := s.respond (.error e)

/-- Take a presented request: the transaction is in progress from here (R39, R40). -/
def State.accept (s : State) (q : Request) : State :=
  { s with inProgress := some q, host := s.host.tail }

/-- Reset: the block is idle and ready; a transaction in progress is abandoned with no response (R140, R141). The
responses already given are the host's (R24, log 7). -/
def State.takeReset (s : State) : State :=
  { s with inProgress := none, host := s.host.tail }

/-- The host's action for a step in which it neither resets nor is taken a request from: a `wait` is used up, a
request stays presented (R143 H6, logs 3, 8). -/
def State.passWait (s : State) : State :=
  match s.host with
  | .wait :: rest => { s with host := rest }
  | _ => s

end Sys2Proof.Machine
end

