-- ==== Sys2Proof/Machine/Operands.lean ====
section
/-! DEFINITION. The operand forms of spec/30_encoding.md: nibble pairs (R55, R56), the field encodings of the frame
(section 2), the record header, entry and padding of the ancillary buffer (section 5), and the helpers spec/10_state.md
defines on values (R17, R25, D7). -/

namespace Sys2Proof.Machine

/-- `(zext_8(hi) << 4) | zext_8(lo)` (R55, R56). -/
def packNibbles (hi lo : U4) : Byte := (hi.setWidth 8 <<< 4) ||| lo.setWidth 8

/-- `w & 0x0F` as a `u4` (R55, R56). -/
def lowNibble (b : Byte) : U4 := (b &&& 0x0F).setWidth 4

/-- `(w >> 4) & 0x0F` as a `u4` (R55, R56). -/
def highNibble (b : Byte) : U4 := ((b >>> 4) &&& 0x0F).setWidth 4

/-- `to_be_16(v)` (R31). -/
def encU16 (v : U16) : Bytes := toBE 2 v.toNat

/-- `to_be_32(v)` (R31). -/
def encU32 (v : U32) : Bytes := toBE 4 v.toNat

/-- `to_be_64(as_unsigned_64(v))` (R31, R60). -/
def encI64 (v : I64) : Bytes := toBE 8 (asUnsigned 64 v.toInt)

/-- `as_unsigned_8(v)` (R63). -/
def encI8 (v : I8) : Byte := BitVec.ofNat 8 (asUnsigned 8 v.toInt)

/-- `be_16(MemRead(w, off, 2))` (R31). -/
def decU16 (w : Bytes) (off : Nat) : U16 := BitVec.ofNat 16 (fromBE (memRead w off 2))

/-- `be_32(MemRead(w, off, 4))` (R31). -/
def decU32 (w : Bytes) (off : Nat) : U32 := BitVec.ofNat 32 (fromBE (memRead w off 4))

/-- `as_signed_64(be_64(MemRead(w, off, 8)))` (R31, R60). -/
def decI64 (w : Bytes) (off : Nat) : I64 := Int64.ofInt (asSigned 64 (fromBE (memRead w off 8)))

/-- `as_signed_8(w[i])` (R63). -/
def decI8 (w : Bytes) (i : Nat) : I8 := Int8.ofInt (asSigned 8 (byteAt w i).toNat)

/-- `derive(mac)`: the six bytes with FF FE in the middle (R80). DERIVE and BUILDSYNC (R117) share it. -/
def insertFFFE (mac : MacAddress) : ClockIdentity :=
  #v[mac[0], mac[1], mac[2], 0xFF, 0xFE, mac[3], mac[4], mac[5]]

/-- `validFrame(f)` (R25, D8). -/
def validFrame (f : EthernetFrame) : Bool := decide (f.etherType = etherTypePtp)

/-- `seconds48` (R17, D26): a helper; no operation forms it. -/
def seconds48 (t : OriginTimestamp) : BitVec 48 := (t.secondsMsb.setWidth 48 <<< 32) ||| t.secondsLsb.setWidth 48

/-- The four bytes of `messageTypeSpecific` as one number in `HOST_BYTE_ORDER` (D7): a view for a host; no operation
forms it. -/
def messageTypeSpecificNumber (P : Params) (h : PtpHeader) : U32 :=
  BitVec.ofNat 32 (fromOrd P.hostByteOrder h.messageTypeSpecific.toList)

/-- The header of an ancillary record: its length word and its tag (R69). -/
structure RecordHeader where
  len : Nat
  level : Int
  type : Int
deriving DecidableEq, Repr

/-- A signed word of `n` bytes at an offset, in `ANC_ORDER` (R36, R69, R71). -/
def readSigned (P : Params) (b : Bytes) (off n : Nat) : Int := asSigned (8 * n) (fromOrd P.ancOrder (memRead b off n))

/-- The header of the record that starts at `p` (R69), read only where a whole header remains. -/
def readHeader (P : Params) (a : Bytes) (p : Nat) : RecordHeader where
  len := fromOrd P.ancOrder (memRead a p P.ancLenBytes)
  level := readSigned P a (p + P.ancLenBytes) P.ancLevelBytes
  type := readSigned P a (p + P.ancLenBytes + P.ancLevelBytes) P.ancTypeBytes

/-- Is the record at `p` well framed: `ANC_HDR_BYTES <= len <= len(a) - p` (R70)? -/
def headerWellFramed (P : Params) (a : Bytes) (p : Nat) : Bool :=
  decide (P.ancHdrBytes ≤ (readHeader P a p).len ∧ (readHeader P a p).len ≤ a.length - p)

/-- The payload of the record at `p` (R69). -/
def readPayload (P : Params) (a : Bytes) (p : Nat) : Bytes :=
  memRead a (p + P.ancHdrBytes) ((readHeader P a p).len - P.ancHdrBytes)

/-- Is a tag `TS_TAG` (R21, R102)? Both halves must match. -/
def isTimestampTag (P : Params) (level type : Int) : Bool := decide (level = P.tsLevel ∧ type = P.tsType)

/-- The offset of the record after the one at `p` (R70). -/
def nextRecord (P : Params) (a : Bytes) (p : Nat) : Nat := p + roundUp (readHeader P a p).len P.ancAlign

/-- Entry `i` of a timestamping payload (R71). -/
def readEntry (P : Params) (q : Bytes) (i : Nat) : HardwareTimestamp where
  seconds := readSigned P q (i * P.tsEntryBytes) P.tsSecBytes
  nanoseconds := readSigned P q (i * P.tsEntryBytes + P.tsSecBytes) P.tsNsecBytes

/-- The bytes of a record, header then payload, without padding: the inverse of R69. -/
def recordBytes (P : Params) (r : AncRecord) : Bytes :=
  toOrd P.ancOrder P.ancLenBytes (P.ancHdrBytes + r.payload.length)
    ++ toOrd P.ancOrder P.ancLevelBytes (asUnsigned (8 * P.ancLevelBytes) r.level)
    ++ toOrd P.ancOrder P.ancTypeBytes (asUnsigned (8 * P.ancTypeBytes) r.type)
    ++ r.payload

/-- Bytes of padding after a record of `len` bytes (R38, R70). -/
def paddingAfter (P : Params) (len : Nat) : Nat := roundUp len P.ancAlign - len

/-- A buffer of records, each followed by the padding bytes given with it; padding is never read, so they are any bytes
(R38, R70). -/
def framePadded (P : Params) : List (AncRecord × Bytes) → Bytes
  | [] => []
  | x :: xs => recordBytes P x.1 ++ x.2 ++ framePadded P xs

/-- A buffer that frames a list of records, each padded with zeros to `ANC_ALIGN` (R38, R70). -/
def frameRecords (P : Params) (recs : List AncRecord) : Bytes :=
  framePadded P (recs.map fun r => (r, List.replicate (paddingAfter P (P.ancHdrBytes + r.payload.length)) 0))

/-- A record whose length and tag halves fit their words, so that the framing can carry it (R69). -/
def recordFits (P : Params) (r : AncRecord) : Bool :=
  decide (P.ancHdrBytes + r.payload.length < 256 ^ P.ancLenBytes
    ∧ (-(2 ^ (8 * P.ancLevelBytes - 1)) ≤ r.level ∧ r.level < 2 ^ (8 * P.ancLevelBytes - 1))
    ∧ (-(2 ^ (8 * P.ancTypeBytes - 1)) ≤ r.type ∧ r.type < 2 ^ (8 * P.ancTypeBytes - 1)))

end Sys2Proof.Machine
end

