-- ==== Sys2Proof/Machine/Flags.lean ====
section
/-! DEFINITION. The block has no flags or condition codes (spec/10_state.md R11). What reports an outcome is the 2-bit
status of the response (spec/30_encoding.md R66), computed here; it is not a register (R11). -/

namespace Sys2Proof.Machine

/-- R66, R125: SizeMismatch is 0b01, ShortRecord 0b10, Missing 0b11. -/
def OpError.status (e : OpError) : BitVec 2 :=
  match e with
  | .decode .sizeMismatch => 0b01#2
  | .timestamp .shortRecord => 0b10#2
  | .timestamp .missing => 0b11#2

/-- R66: OK is 0b00. -/
def Response.status (r : Response) : BitVec 2 :=
  match r with
  | .ok _ => 0b00#2
  | .error e => e.status

end Sys2Proof.Machine
end

