-- ==== Sys2Proof/Machine/Assembly.lean ====
section
/-! DEFINITION. Operation family 4, frame assembly: BUILDSYNC (spec/43_assembly.md). -/

namespace Sys2Proof.Machine

/-- The default Sync frame (R120): the constants of R116, the port identity of R117, the zero origin timestamp of R118
and, for the fields the source does not mention, the values of R119 (D17, log 17). -/
def defaultSync (source : MacAddress) (sequenceId : U16) : EthernetFrame where
  destination := ptpPeerMcast
  source := source
  etherType := etherTypePtp
  payload :=
    { header :=
        { messageType := 0x0
          majorSdoId := 0x1
          versionPtp := 0x2
          minorVersionPtp := 0x1
          messageLength := 44
          domainNumber := 0
          minorSdoId := 0
          flags := #v[0x00, 0x00]
          correctionField := 0
          messageTypeSpecific := #v[0x00, 0x00, 0x00, 0x00]
          sourcePortIdentity := { clockIdentity := insertFFFE source, portNumber := 1 }
          sequenceId := sequenceId
          controlField := 0
          logMessagePeriod := -3 }
      originTimestamp := { secondsMsb := 0, secondsLsb := 0, nanoseconds := 0 } }

/-- BUILDSYNC (R115, R120): total, no error. The logical record is the result, not bytes (R115). -/
def execBuildSync (source : MacAddress) (sequenceId : U16) (s : State) : Host.Outcome State Fault Refusal :=
  .next (s.answer (.frame (defaultSync source sequenceId)))

end Sys2Proof.Machine
end

