-- ==== Sys2Proof/Machine/Codec.lean ====
section
/-! DEFINITION. Operation family 2, the wire codec: ENCODE and DECODE (spec/41_codec.md), over the frame layout of
spec/30_encoding.md R51. -/

namespace Sys2Proof.Machine

/-- The Ethernet header, frame offsets 0 to 13 (R51 to R53). The EtherType is the constant whatever the frame's
member holds (R87). -/
def encodeEthernetHeader (f : EthernetFrame) : Bytes :=
  f.destination.toList            -- 0
    ++ f.source.toList            -- 6
    ++ encU16 etherTypePtp        -- 12

/-- The PTP header, frame offsets 14 to 47 (R51, R55 to R63). -/
def encodePtpHeader (h : PtpHeader) : Bytes :=
  [packNibbles h.majorSdoId h.messageType,                  -- 14
   packNibbles h.minorVersionPtp h.versionPtp]              -- 15
    ++ encU16 h.messageLength                               -- 16
    ++ [h.domainNumber, h.minorSdoId]                       -- 18, 19
    ++ h.flags.toList                                       -- 20
    ++ encI64 h.correctionField                             -- 22
    ++ h.messageTypeSpecific.toList                         -- 30
    ++ h.sourcePortIdentity.clockIdentity.toList            -- 34
    ++ encU16 h.sourcePortIdentity.portNumber               -- 42
    ++ encU16 h.sequenceId                                  -- 44
    ++ [h.controlField, encI8 h.logMessagePeriod]           -- 46, 47

/-- The origin timestamp, frame offsets 48 to 57 (R51, R64). -/
def encodeOriginTimestamp (t : OriginTimestamp) : Bytes :=
  encU16 t.secondsMsb             -- 48
    ++ encU32 t.secondsLsb        -- 50
    ++ encU32 t.nanoseconds       -- 54

/-- ENCODE's 58 bytes: the three parts in order, packed (R37, R50, R86). Nothing is validated (R88). -/
def encodeFrame (f : EthernetFrame) : Bytes :=
  encodeEthernetHeader f ++ encodePtpHeader f.payload.header ++ encodeOriginTimestamp f.payload.originTimestamp

/-- The PTP header of a 58-byte frame (R90). -/
def decodePtpHeader (w : Bytes) : PtpHeader where
  messageType := lowNibble (byteAt w 14)
  majorSdoId := highNibble (byteAt w 14)
  versionPtp := lowNibble (byteAt w 15)
  minorVersionPtp := highNibble (byteAt w 15)
  messageLength := decU16 w 16
  domainNumber := byteAt w 18
  minorSdoId := byteAt w 19
  flags := readArr w 20 2
  correctionField := decI64 w 22
  messageTypeSpecific := readArr w 30 4
  sourcePortIdentity := { clockIdentity := readArr w 34 8, portNumber := decU16 w 42 }
  sequenceId := decU16 w 44
  controlField := byteAt w 46
  logMessagePeriod := decI8 w 47

/-- The origin timestamp of a 58-byte frame (R90). -/
def decodeOriginTimestamp (w : Bytes) : OriginTimestamp where
  secondsMsb := decU16 w 48
  secondsLsb := decU32 w 50
  nanoseconds := decU32 w 54

/-- The fields of a 58-byte frame (R90). The EtherType is not compared (R91). -/
def decodeFields (w : Bytes) : EthernetFrame where
  destination := readArr w 0 6
  source := readArr w 6 6
  etherType := decU16 w 12
  payload := { header := decodePtpHeader w, originTimestamp := decodeOriginTimestamp w }

/-- DECODE: the size check first, then the fields; nothing else is checked (R89, R90, R91). -/
def decodeFrame (b : Bytes) : Except DecodeError EthernetFrame :=
  if b.length = frameBytes then .ok (decodeFields b) else .error .sizeMismatch

/-- ENCODE (R85, R86): total, no error. -/
def execEncode (f : EthernetFrame) (s : State) : Host.Outcome State Fault Refusal :=
  .next (s.answer (.bytes (encodeFrame f)))

/-- DECODE (R89, R90): a frame, or SizeMismatch with no frame. -/
def execDecode (b : Bytes) (s : State) : Host.Outcome State Fault Refusal :=
  match decodeFrame b with
  | .ok f => .next (s.answer (.frame f))
  | .error e => .next (s.raiseError (.decode e))

end Sys2Proof.Machine
end

