-- ==== Sys2Proof/Machine/Identity.lean ====
section
/-! DEFINITION. Operation family 1, clock identity derivation: DERIVE (spec/40_identity.md). -/

namespace Sys2Proof.Machine

/-- DERIVE (R80): total, no error. -/
def execDerive (mac : MacAddress) (s : State) : Host.Outcome State Fault Refusal :=
  .next (s.answer (.identity (insertFFFE mac)))

end Sys2Proof.Machine
end

