-- ==== Sys2Proof/Machine/Timestamp.lean ====
section
/-! DEFINITION. Operation family 3, timestamp extraction: EXTRACT (spec/42_timestamp.md). The record layer
(`selectTimestamp`, R101 to R107), the cutting of a buffer into records (`cutRecords`, R69, R70), well-framedness
(`wellFramed`, R70), and EXTRACT as the one scan of R108 (`extractTimestamp`).

The three scans recurse on a count of turns. Every turn moves the offset on by at least one byte, so a count above the
buffer's length is never used up (R108 "The loop ends"; log 23). -/

namespace Sys2Proof.Machine

/-- What the found record's payload gives: `ShortRecord` if it holds fewer than three entries (R103), else its third
entry unchanged (R104); bytes after it are ignored (R107). -/
def rawHardwareEntry (P : Params) (q : Bytes) : Except TimestampError HardwareTimestamp :=
  if q.length < tsEntries * P.tsEntryBytes then .error .shortRecord else .ok (readEntry P q tsSelect)

/-- The record layer of EXTRACT: records of other tags are ignored (R102), the first one tagged `TS_TAG` decides
(R106), and there is `Missing` if none is (R105). -/
def selectTimestamp (P : Params) : List AncRecord → Except TimestampError HardwareTimestamp
  | [] => .error .missing
  | r :: rs => if isTimestampTag P r.level r.type then rawHardwareEntry P r.payload else selectTimestamp P rs

/-- The records from offset `p` on (R69, R70); `none` if one of them is not well framed. -/
def cutFrom (P : Params) (a : Bytes) : Nat → Nat → Option (List AncRecord)
  | 0, _ => none
  | n + 1, p =>
    if p + P.ancHdrBytes ≤ a.length then
      if headerWellFramed P a p then
        match cutFrom P a n (nextRecord P a p) with
        | none => none
        | some rs =>
          some ({ level := (readHeader P a p).level, type := (readHeader P a p).type, payload := readPayload P a p } :: rs)
      else none
    else some []

/-- The whole buffer cut into records; `none` if one of them is not well framed. -/
def cutRecords (P : Params) (a : Bytes) : Option (List AncRecord) := cutFrom P a (a.length + 1) 0

/-- Is every record from `p` on well framed, up to the point where EXTRACT stops looking (R70)? -/
def wellFramedFrom (P : Params) (a : Bytes) : Nat → Nat → Bool
  | 0, _ => true
  | n + 1, p =>
    if p + P.ancHdrBytes ≤ a.length then
      headerWellFramed P a p
        && (isTimestampTag P (readHeader P a p).level (readHeader P a p).type
          || wellFramedFrom P a n (nextRecord P a p))
    else true

/-- A well-framed buffer (R70), the host's duty H1 (R143). -/
def wellFramed (P : Params) (a : Bytes) : Bool := wellFramedFrom P a (a.length + 1) 0

/-- The loop of R108 from offset `p`: per record in buffer order, framing, then tag, then payload length (R131).
`none` is "refuse" (R109). -/
def scanFrom (P : Params) (a : Bytes) : Nat → Nat → Option (Except TimestampError HardwareTimestamp)
  | 0, _ => none
  | n + 1, p =>
    if p + P.ancHdrBytes ≤ a.length then
      if headerWellFramed P a p then
        if isTimestampTag P (readHeader P a p).level (readHeader P a p).type then
          some (rawHardwareEntry P (readPayload P a p))
        else scanFrom P a n (nextRecord P a p)
      else none
    else some (.error .missing)

/-- EXTRACT over the byte layer (R108). -/
def extractTimestamp (P : Params) (a : Bytes) : Option (Except TimestampError HardwareTimestamp) :=
  scanFrom P a (a.length + 1) 0

/-- EXTRACT (R100, R108): a timestamp, ShortRecord or Missing; an ill-framed buffer is refused (R109). -/
def execExtract (a : Bytes) (s : State) : Host.Outcome State Fault Refusal :=
  match extractTimestamp s.params a with
  | some (.ok t) => .next (s.answer (.timestamp t))
  | some (.error e) => .next (s.raiseError (.timestamp e))
  | none => .refused .illFramedAncillary

end Sys2Proof.Machine
end

