-- ==== Sys2Proof/Machine/Dispatch.lean ====
section
/-! DEFINITION. One arm per operation of the table (spec/30_encoding.md R65). -/

namespace Sys2Proof.Machine

def exec (i : Instr) (s : State) : Host.Outcome State Fault Refusal :=
  match i with
  | .derive mac => Sys2Proof.Machine.execDerive mac s
  | .encode frame => Sys2Proof.Machine.execEncode frame s
  | .decode bytes => Sys2Proof.Machine.execDecode bytes s
  | .extract ancillary => Sys2Proof.Machine.execExtract ancillary s
  | .buildSync source sequenceId => Sys2Proof.Machine.execBuildSync source sequenceId s

end Sys2Proof.Machine
end

