-- ==== Sys2Proof/Machine/Step.lean ====
section
/-! DEFINITION. One step of the block with its host (spec/20_memory.md R39, R40, spec/70_reset_and_hazards.md R140,
R141). A transaction takes two steps: the request is taken, then it is answered, so that a reset can land between the
two (R141, log 3). -/

namespace Sys2Proof.Machine

/-- Serve a request: decode it, check that it can be presented, run its instruction. -/
def serve (q : Request) (s : State) : Host.Outcome State Fault Refusal :=
  match decodeRequest q with
  | .error why => .refused (.noInstruction why)
  | .ok i =>
    match i.illFormed s.params with
    | some why => .refused (.notPresentable why)
    | none => exec i s

/-- One step. A reset wins over everything (R140, R141); a transaction in progress is then answered (R39); else a
presented request is taken (R40); a block with nothing to do stays as it is (log 4). -/
def step (s : State) : Host.Outcome State Fault Refusal :=
  match s.host, s.inProgress with
  | .reset :: _, _ => .next s.takeReset
  | _, some q => serve q s.passWait
  | .request q :: _, none => .next (s.accept q)
  | _, none => .next s.passWait

/-- `s` with the request of a table word in progress and no host action landing on the next step, so that the next
step answers exactly that request (log 2). -/
def State.withFetchWord (s : State) (nbits w : Nat) : State :=
  { s with inProgress := some (requestOfTableWord nbits w), host := .wait :: s.host }

end Sys2Proof.Machine
end

