-- ==== Sys2Proof/Safety.lean ====
section
/-! DEFINITION. What counts as a safe run, in the terms the statements use: the host's duties that bind a value inside the
block (spec/70_reset_and_hazards.md R143, H1 and H3), what every response looks like, and the response an instruction has
on its own (spec/10_state.md R10). -/

namespace Sys2Proof.Machine

/-- A request that has a response: its code is not reserved (R143 H3), an EXTRACT buffer is well framed (R143 H1), and, by
the model's own choice, its operands are of the operation's type (R23, log 9) and within `RX_MAX` and `ANC_MAX` (S13,
log 10). -/
def requestServed (P : Params) (q : Request) : Bool :=
  match decodeRequest q with
  | .error _ => false
  | .ok i =>
    (i.illFormed P).isNone &&
      match i with
      | .derive _ => true
      | .encode _ => true
      | .decode _ => true
      | .extract a => wellFramed P a
      | .buildSync _ _ => true

/-- A host action that keeps the duties; resets and waits are liberties. -/
def actionKept (P : Params) (h : HostAction) : Bool :=
  match h with
  | .request q => requestServed P q
  | .reset => true
  | .wait => true

/-- The host keeps its duties: every request in progress or still to come has a response. -/
def HostKeepsDuties (s : State) : Prop :=
  (∀ q, s.inProgress = some q → requestServed s.params q = true) ∧ (∀ h ∈ s.host, actionKept s.params h = true)

/-- `v` is a signed integer of `n` bytes (R20, R71). -/
def signedOfBytes (n : Nat) (v : Int) : Prop := -(2 ^ (8 * n - 1)) ≤ v ∧ v < 2 ^ (8 * n - 1)

/-- What R81, R85, R87 and R20 say of every response of their kind: a derived identity has the filler FF FE in bytes 3
and 4, an encoded frame has 58 bytes with 88 F7 at offset 12, a timestamp's members are signed integers of their
widths. A frame is any frame (R72) and an error carries nothing (R22). -/
def responseShape (P : Params) (r : Response) : Prop :=
  match r with
  | .ok (.identity cid) => cid[3] = 0xFF ∧ cid[4] = 0xFE
  | .ok (.bytes w) => w.length = 58 ∧ memRead w 12 2 = [0x88, 0xF7]
  | .ok (.frame _) => True
  | .ok (.timestamp t) => signedOfBytes P.tsSecBytes t.seconds ∧ signedOfBytes P.tsNsecBytes t.nanoseconds
  | .error _ => True

/-- Every response given so far has its kind's shape. -/
def ResponsesShaped (s : State) : Prop := ∀ r ∈ s.responses, responseShape s.params r

/-- The response an instruction has on its own under a parameter record; `none` where the spec gives it none (R109). -/
def responseTo (P : Params) (i : Instr) : Option Response :=
  match i with
  | .derive mac => some (.ok (.identity (insertFFFE mac)))
  | .encode f => some (.ok (.bytes (encodeFrame f)))
  | .decode b =>
    match decodeFrame b with
    | .ok f => some (.ok (.frame f))
    | .error e => some (.error (.decode e))
  | .extract a =>
    match extractTimestamp P a with
    | some (.ok t) => some (.ok (.timestamp t))
    | some (.error e) => some (.error (.timestamp e))
    | none => none
  | .buildSync source sequenceId => some (.ok (.frame (defaultSync source sequenceId)))

/-- `to_be_N(v)` as R7 writes it with bit slices: byte `k` is `v[N-1-8k : N-8-8k]`. The meanings compute it by division
(`toBE`); the statements say the bytes this way. -/
def bigEndianSlices {N : Nat} (v : BitVec N) : Bytes := (List.range (N / 8)).map fun k => v.extractLsb' (N - 8 - 8 * k) 8

/-- `pad` is what aligns a record of `len` bytes: the fewest bytes that bring it to a multiple of `ANC_ALIGN` (R38, R70),
said without `roundUp`. -/
abbrev PadsToAlign (P : Params) (len : Nat) (pad : Bytes) : Prop :=
  pad.length < P.ancAlign ∧ P.ancAlign ∣ len + pad.length

/-- Records the scan passes over: each fits its words, has another tag than `TS_TAG`, and is followed by the bytes that align
it, whatever they are (R38, R69, R70, R102). -/
abbrev OtherRecords (P : Params) (xs : List (AncRecord × Bytes)) : Prop :=
  ∀ x ∈ xs, recordFits P x.1 = true ∧ ¬ (x.1.level = P.tsLevel ∧ x.1.type = P.tsType)
    ∧ PadsToAlign P (P.ancHdrBytes + x.1.payload.length) x.2

/-- Requests as a host presents them one after another, with no reset between them. -/
def presentAll (is : List Instr) : List HostAction := is.map fun i => .request (encodeRequest i)

end Sys2Proof.Machine
end

