-- ==== Sys2Proof/Certificates/Slice0/Obligations.lean ====
section
/-! DEFINITION. The statements for the provers. A statement about `exec` writes the whole next state, so it is its own
frame: the response is appended, the transaction is over, and the parameters, the host's actions and the earlier responses
are as before (that a response is appended to a list and that `inProgress` ends with it are the model's conventions, logs 3
and 5). The block has no register, flag or memory to leave unchanged (spec/10_state.md R10, R11, spec/20_memory.md R30). -/

open Sys2Proof Sys2Proof.Machine

/-! ### DERIVE (spec/40_identity.md) -/

/-- R81: bytes 0 to 2 are the address's first three, bytes 3 and 4 are FF FE, bytes 5 to 7 are its last three; DERIVE
answers that for every address. -/
def Obligations.DeriveKeepsHalvesAroundFiller : Prop :=
  ∀ (mac : MacAddress) (s : State), ∃ cid : ClockIdentity,
    exec (.derive mac) s
        = .next { s with responses := s.responses ++ [.ok (.identity cid)], inProgress := none }
      ∧ memRead cid.toList 3 2 = [0xFF, 0xFE]
      ∧ memRead cid.toList 0 3 = memRead mac.toList 0 3
      ∧ memRead cid.toList 5 3 = memRead mac.toList 3 3

/-- Two addresses never give one identity, and the identities with FF FE in bytes 3 and 4 are exactly the images. The spec
marks this as its own inference from R80 (spec/40_identity.md, R82 "[derived: from rule R80]"). -/
def Obligations.DeriveInjectiveOntoFillerIdentities : Prop :=
  (∀ m m' : MacAddress, insertFFFE m = insertFFFE m' → m = m')
    ∧ (∀ cid : ClockIdentity, (∃ m, insertFFFE m = cid) ↔ (cid[3] = 0xFF ∧ cid[4] = 0xFE))

/-! ### ENCODE (spec/41_codec.md) -/

/-- ENCODE answers 58 bytes with every field at its offset: arrays verbatim, integers big-endian, nibble pairs packed, signed
values in two's complement, the EtherType constant (spec/41_codec.md section ENCODE). The offset table is the spec's
decision D5 and the nibble order of byte 15 its D6 (log 15); bytes 12 and 13 whatever the member holds are D8 (log 18). -/
def Obligations.EncodeWritesEveryField : Prop :=
  ∀ (f : EthernetFrame) (s : State), ∃ w : Bytes,
    exec (.encode f) s = .next { s with responses := s.responses ++ [.ok (.bytes w)], inProgress := none }
      ∧ w.length = 58
      ∧ memRead w 0 6 = f.destination.toList
      ∧ memRead w 6 6 = f.source.toList
      ∧ memRead w 12 2 = [0x88, 0xF7]
      ∧ memRead w 14 1 = [f.payload.header.majorSdoId ++ f.payload.header.messageType]
      ∧ memRead w 15 1 = [f.payload.header.minorVersionPtp ++ f.payload.header.versionPtp]
      ∧ memRead w 16 2 = bigEndianSlices f.payload.header.messageLength
      ∧ memRead w 18 1 = [f.payload.header.domainNumber]
      ∧ memRead w 19 1 = [f.payload.header.minorSdoId]
      ∧ memRead w 20 2 = f.payload.header.flags.toList
      ∧ memRead w 22 8 = bigEndianSlices f.payload.header.correctionField.toBitVec
      ∧ memRead w 30 4 = f.payload.header.messageTypeSpecific.toList
      ∧ memRead w 34 8 = f.payload.header.sourcePortIdentity.clockIdentity.toList
      ∧ memRead w 42 2 = bigEndianSlices f.payload.header.sourcePortIdentity.portNumber
      ∧ memRead w 44 2 = bigEndianSlices f.payload.header.sequenceId
      ∧ memRead w 46 1 = [f.payload.header.controlField]
      ∧ memRead w 47 1 = [f.payload.header.logMessagePeriod.toBitVec]
      ∧ memRead w 48 2 = bigEndianSlices f.payload.originTimestamp.secondsMsb
      ∧ memRead w 50 4 = bigEndianSlices f.payload.originTimestamp.secondsLsb
      ∧ memRead w 54 4 = bigEndianSlices f.payload.originTimestamp.nanoseconds

/-- ENCODE does not read the frame's EtherType member and always writes 88 F7. That it reports no mismatch is the spec's
decision D8 (spec/92_eei_decisions.md). -/
def Obligations.EncodeIgnoresEtherTypeMember : Prop :=
  ∀ (f : EthernetFrame) (e : U16) (s : State),
    exec (.encode { f with etherType := e }) s = exec (.encode f) s
      ∧ memRead (encodeFrame { f with etherType := e }) 12 2 = [0x88, 0xF7]

/-! ### DECODE (spec/41_codec.md) -/

/-- R126: a byte count other than 58 is answered with SizeMismatch and no frame; nothing is cut off or filled up. -/
def Obligations.DecodeRejectsEveryOtherSize : Prop :=
  ∀ (b : Bytes) (s : State), b.length ≠ 58 →
    exec (.decode b) s
      = .next { s with responses := s.responses ++ [.error (.decode .sizeMismatch)], inProgress := none }

/-- DECODE of 58 bytes answers the frame whose every field is read from its offset (spec/41_codec.md section DECODE). The
offset table is the spec's decision D5 and the nibble order of byte 15 its D6 (log 15); that the EtherType is read unchecked
is D8 (log 18). -/
def Obligations.DecodeReadsEveryField : Prop :=
  ∀ (w : Bytes) (s : State), w.length = 58 → ∃ f : EthernetFrame,
    exec (.decode w) s = .next { s with responses := s.responses ++ [.ok (.frame f)], inProgress := none }
      ∧ f.destination.toList = memRead w 0 6
      ∧ f.source.toList = memRead w 6 6
      ∧ bigEndianSlices f.etherType = memRead w 12 2
      ∧ [f.payload.header.majorSdoId ++ f.payload.header.messageType] = memRead w 14 1
      ∧ [f.payload.header.minorVersionPtp ++ f.payload.header.versionPtp] = memRead w 15 1
      ∧ bigEndianSlices f.payload.header.messageLength = memRead w 16 2
      ∧ [f.payload.header.domainNumber] = memRead w 18 1
      ∧ [f.payload.header.minorSdoId] = memRead w 19 1
      ∧ f.payload.header.flags.toList = memRead w 20 2
      ∧ bigEndianSlices f.payload.header.correctionField.toBitVec = memRead w 22 8
      ∧ f.payload.header.messageTypeSpecific.toList = memRead w 30 4
      ∧ f.payload.header.sourcePortIdentity.clockIdentity.toList = memRead w 34 8
      ∧ bigEndianSlices f.payload.header.sourcePortIdentity.portNumber = memRead w 42 2
      ∧ bigEndianSlices f.payload.header.sequenceId = memRead w 44 2
      ∧ [f.payload.header.controlField] = memRead w 46 1
      ∧ [f.payload.header.logMessagePeriod.toBitVec] = memRead w 47 1
      ∧ bigEndianSlices f.payload.originTimestamp.secondsMsb = memRead w 48 2
      ∧ bigEndianSlices f.payload.originTimestamp.secondsLsb = memRead w 50 4
      ∧ bigEndianSlices f.payload.originTimestamp.nanoseconds = memRead w 54 4

/-- R55: majorSdoId is the high nibble of byte 14 and messageType the low one, in both directions. -/
def Obligations.FirstNibblePairPosition : Prop :=
  (∀ f : EthernetFrame,
      (byteAt (encodeFrame f) 14).toNat
        = 16 * f.payload.header.majorSdoId.toNat + f.payload.header.messageType.toNat)
    ∧ (∀ (w : Bytes) (f : EthernetFrame), decodeFrame w = .ok f →
      f.payload.header.messageType.toNat = (byteAt w 14).toNat % 16
        ∧ f.payload.header.majorSdoId.toNat = (byteAt w 14).toNat / 16)

/-- minorVersionPtp is the high nibble of byte 15 and versionPtp the low one, in both directions: the spec's decision D6. -/
def Obligations.SecondNibblePairPosition : Prop :=
  (∀ f : EthernetFrame,
      (byteAt (encodeFrame f) 15).toNat
        = 16 * f.payload.header.minorVersionPtp.toNat + f.payload.header.versionPtp.toNat)
    ∧ (∀ (w : Bytes) (f : EthernetFrame), decodeFrame w = .ok f →
      f.payload.header.versionPtp.toNat = (byteAt w 15).toNat % 16
        ∧ f.payload.header.minorVersionPtp.toNat = (byteAt w 15).toNat / 16)

/-- R60: correctionField is big-endian two's complement at offset 22 in both directions, as numbers, and its sign survives
both operations together. -/
def Obligations.CorrectionFieldIsSigned : Prop :=
  (∀ f : EthernetFrame,
      memRead (encodeFrame f) 22 8 = toBE 8 (asUnsigned 64 f.payload.header.correctionField.toInt))
    ∧ (∀ (w : Bytes) (f : EthernetFrame), decodeFrame w = .ok f →
      f.payload.header.correctionField.toInt = asSigned 64 (fromBE (memRead w 22 8)))
    ∧ (∀ f g : EthernetFrame, decodeFrame (encodeFrame f) = .ok g →
      g.payload.header.correctionField.toInt = f.payload.header.correctionField.toInt)

/-- R63: logMessagePeriod is one two's-complement byte at offset 47 in both directions, as numbers. -/
def Obligations.LogMessagePeriodIsSigned : Prop :=
  (∀ f : EthernetFrame,
      (byteAt (encodeFrame f) 47).toNat = asUnsigned 8 f.payload.header.logMessagePeriod.toInt)
    ∧ (∀ (w : Bytes) (f : EthernetFrame), decodeFrame w = .ok f →
      f.payload.header.logMessagePeriod.toInt = asSigned 8 (byteAt w 47).toNat)

/-- The round-trip law with its converse case: DECODE of what ENCODE answers is the frame with its EtherType made the
constant, hence the frame itself when it is valid. "Valid" and the second case are the spec's decision D8 and inference
(spec/41_codec.md Laws). -/
def Obligations.DecodeAfterEncodeIsIdentity : Prop :=
  ∀ (f : EthernetFrame) (s : State), ∃ w : Bytes,
    exec (.encode f) s = .next { s with responses := s.responses ++ [.ok (.bytes w)], inProgress := none }
      ∧ (∀ t : State, exec (.decode w) t
          = .next { t with responses := t.responses ++ [.ok (.frame { f with etherType := 0x88F7 })], inProgress := none })
      ∧ (validFrame f = true → decodeFrame w = .ok f)

/-- The converse law: ENCODE of what DECODE answers for 58 bytes is those bytes except at offsets 12 and 13, and those
bytes entirely exactly when they hold 88 F7 there. The spec marks the law as its own inference (spec/41_codec.md Laws). -/
def Obligations.EncodeAfterDecodeIsIdentity : Prop :=
  ∀ w : Bytes, w.length = 58 → ∃ f : EthernetFrame, decodeFrame w = .ok f
    ∧ encodeFrame f = w.take 12 ++ [0x88, 0xF7] ++ w.drop 14
    ∧ (encodeFrame f = w ↔ memRead w 12 2 = [0x88, 0xF7])

/-- ENCODE is a bijection from the valid frames onto the 58-byte sequences with 88 F7 at 12 and 13 (the spec's inference,
spec/41_codec.md Laws). -/
def Obligations.EncodeBijectiveOnValidFrames : Prop :=
  (∀ f g : EthernetFrame, validFrame f = true → validFrame g = true → encodeFrame f = encodeFrame g → f = g)
    ∧ (∀ w : Bytes, (∃ f, validFrame f = true ∧ encodeFrame f = w) ↔ (w.length = 58 ∧ memRead w 12 2 = [0x88, 0xF7]))

/-- What a receiver sees when an adapter overwrites the eight bytes at offset 22: DECODE still answers a frame, with that
correctionField and every other field as sent. Inferred from the encodings; the overwrite itself is outside the block
(spec/70_reset_and_hazards.md section 3). -/
def Obligations.AdapterOverwriteChangesOnlyCorrection : Prop :=
  ∀ (f : EthernetFrame) (c : Bytes), validFrame f = true → c.length = 8 → ∃ g : EthernetFrame,
    decodeFrame ((encodeFrame f).take 22 ++ c ++ (encodeFrame f).drop 30) = .ok g
      ∧ g.payload.header.correctionField.toInt = asSigned 64 (fromBE c)
      ∧ f = { g with payload := { g.payload with header :=
          { g.payload.header with correctionField := f.payload.header.correctionField } } }

/-- The six bytes at offset 48 are the big-endian 48-bit seconds count, in both directions. The count is a helper the spec
defines and no operation forms (the spec's D26). -/
def Obligations.SecondsAreContiguous : Prop :=
  (∀ f : EthernetFrame, memRead (encodeFrame f) 48 6 = bigEndianSlices (seconds48 f.payload.originTimestamp))
    ∧ (∀ (w : Bytes) (f : EthernetFrame), decodeFrame w = .ok f →
      (seconds48 f.payload.originTimestamp).toNat = fromBE (memRead w 48 6))
    ∧ (∀ t : OriginTimestamp, (seconds48 t).toNat = t.secondsMsb.toNat * 2 ^ 32 + t.secondsLsb.toNat)

/-! ### EXTRACT (spec/42_timestamp.md) -/

/-- EXTRACT completes: any records of other tags, each with any padding bytes, then a record tagged `TS_TAG` with at least
three entries, then anything at all, is answered with entry 2, each member a signed word in `ANC_ORDER`. The byte layout is
the spec's D12, D13; that the first tagged record decides and that bytes past the third entry are ignored are D14, D15
(log 16). -/
def Obligations.ExtractAnswersThirdEntry : Prop :=
  ∀ (s : State) (before : List (AncRecord × Bytes)) (r : AncRecord) (tail : Bytes),
    OtherRecords s.params before →
    recordFits s.params r = true → r.level = s.params.tsLevel → r.type = s.params.tsType →
    3 * (s.params.tsSecBytes + s.params.tsNsecBytes) ≤ r.payload.length →
    exec (.extract (framePadded s.params before ++ recordBytes s.params r ++ tail)) s
      = .next { s with
          responses := s.responses ++ [.ok (.timestamp
            { seconds := asSigned (8 * s.params.tsSecBytes) (fromOrd s.params.ancOrder
                (memRead r.payload (2 * (s.params.tsSecBytes + s.params.tsNsecBytes)) s.params.tsSecBytes))
              nanoseconds := asSigned (8 * s.params.tsNsecBytes) (fromOrd s.params.ancOrder
                (memRead r.payload (2 * (s.params.tsSecBytes + s.params.tsNsecBytes) + s.params.tsSecBytes)
                  s.params.tsNsecBytes)) })]
          inProgress := none }

/-- The same buffer with fewer than three entries in the tagged record is answered with ShortRecord, whatever the padding
before it and whatever follows (layout D12, D13; first record decides D14, log 16). -/
def Obligations.ExtractAnswersShortRecord : Prop :=
  ∀ (s : State) (before : List (AncRecord × Bytes)) (r : AncRecord) (tail : Bytes),
    OtherRecords s.params before →
    recordFits s.params r = true → r.level = s.params.tsLevel → r.type = s.params.tsType →
    r.payload.length < 3 * (s.params.tsSecBytes + s.params.tsNsecBytes) →
    exec (.extract (framePadded s.params before ++ recordBytes s.params r ++ tail)) s
      = .next { s with responses := s.responses ++ [.error (.timestamp .shortRecord)], inProgress := none }

/-- Records of other tags only are answered with Missing, whatever their padding bytes: followed by fewer bytes than a header,
or with a last record whose padding is cut off by the end of the buffer, so that the rounded-up step passes it (layout and
iteration D12; trailing bytes D16). -/
def Obligations.ExtractAnswersMissing : Prop :=
  ∀ (s : State) (xs : List (AncRecord × Bytes)), OtherRecords s.params xs →
    (∀ tail : Bytes,
        tail.length < s.params.ancLenBytes + s.params.ancLevelBytes + s.params.ancTypeBytes →
        exec (.extract (framePadded s.params xs ++ tail)) s
          = .next { s with responses := s.responses ++ [.error (.timestamp .missing)], inProgress := none })
      ∧ (∀ (last : AncRecord) (cut : Bytes),
        recordFits s.params last = true → ¬ (last.level = s.params.tsLevel ∧ last.type = s.params.tsType) →
        (∀ k ≤ cut.length, ¬ s.params.ancAlign ∣ s.params.ancHdrBytes + last.payload.length + k) →
        exec (.extract (framePadded s.params xs ++ recordBytes s.params last ++ cut)) s
          = .next { s with responses := s.responses ++ [.error (.timestamp .missing)], inProgress := none })

/-- EXTRACT is refused exactly on the buffers that are not well framed (the spec's decision D16), and answers every other. -/
def Obligations.ExtractRefusesExactlyIllFramed : Prop :=
  ∀ (a : Bytes) (s : State),
    (exec (.extract a) s = .refused .illFramedAncillary ↔ wellFramed s.params a = false)
      ∧ (wellFramed s.params a = true → ∃ r, exec (.extract a) s
          = .next { s with responses := s.responses ++ [r], inProgress := none })

/-- The bounds of a length word, in bytes: after any records of other tags stands a whole header, a length word and then
`rest`. The buffer is refused when the length word is below `ANC_HDR_BYTES` or above the bytes that remain (the spec's D16,
log 12). Within those bounds, both included, it is answered: by its payload where the header has the tag `TS_TAG`, and with
Missing where it has another and fewer bytes than a header follow (layout D12, D13; D14 and D15, log 16). -/
def Obligations.ExtractLengthWordBounds : Prop :=
  ∀ (s : State) (before : List (AncRecord × Bytes)) (lenBytes rest : Bytes) (hdr len remaining : Nat) (level type : Int),
    OtherRecords s.params before →
    lenBytes.length = s.params.ancLenBytes → s.params.ancLevelBytes + s.params.ancTypeBytes ≤ rest.length →
    hdr = s.params.ancLenBytes + s.params.ancLevelBytes + s.params.ancTypeBytes →
    len = fromOrd s.params.ancOrder lenBytes → remaining = lenBytes.length + rest.length →
    level = asSigned (8 * s.params.ancLevelBytes) (fromOrd s.params.ancOrder (memRead rest 0 s.params.ancLevelBytes)) →
    type = asSigned (8 * s.params.ancTypeBytes)
      (fromOrd s.params.ancOrder (memRead rest s.params.ancLevelBytes s.params.ancTypeBytes)) →
    (len < hdr ∨ remaining < len →
        exec (.extract (framePadded s.params before ++ lenBytes ++ rest)) s = .refused .illFramedAncillary)
      ∧ (hdr ≤ len → len ≤ remaining → level = s.params.tsLevel → type = s.params.tsType →
        len - hdr < 3 * (s.params.tsSecBytes + s.params.tsNsecBytes) →
        exec (.extract (framePadded s.params before ++ lenBytes ++ rest)) s
          = .next { s with responses := s.responses ++ [.error (.timestamp .shortRecord)], inProgress := none })
      ∧ (hdr ≤ len → len ≤ remaining → level = s.params.tsLevel → type = s.params.tsType →
        3 * (s.params.tsSecBytes + s.params.tsNsecBytes) ≤ len - hdr →
        ∃ t, exec (.extract (framePadded s.params before ++ lenBytes ++ rest)) s
            = .next { s with responses := s.responses ++ [.ok (.timestamp t)], inProgress := none }
          ∧ t.seconds = asSigned (8 * s.params.tsSecBytes) (fromOrd s.params.ancOrder
              (memRead rest (s.params.ancLevelBytes + s.params.ancTypeBytes
                + 2 * (s.params.tsSecBytes + s.params.tsNsecBytes)) s.params.tsSecBytes))
          ∧ t.nanoseconds = asSigned (8 * s.params.tsNsecBytes) (fromOrd s.params.ancOrder
              (memRead rest (s.params.ancLevelBytes + s.params.ancTypeBytes
                + 2 * (s.params.tsSecBytes + s.params.tsNsecBytes) + s.params.tsSecBytes) s.params.tsNsecBytes)))
      ∧ (hdr ≤ len → len ≤ remaining → ¬ (level = s.params.tsLevel ∧ type = s.params.tsType) → remaining < len + hdr →
        exec (.extract (framePadded s.params before ++ lenBytes ++ rest)) s
          = .next { s with responses := s.responses ++ [.error (.timestamp .missing)], inProgress := none })

/-- The one scan of the byte layer refines the record layer: where the whole buffer cuts into records, EXTRACT is the
record layer's choice among them (spec/42_timestamp.md section R108 joins the two layers; layout D12). -/
def Obligations.ExtractRefinesRecordLayer : Prop :=
  ∀ (P : Params) (a : Bytes) (recs : List AncRecord),
    cutRecords P a = some recs → extractTimestamp P a = some (selectTimestamp P recs)

/-- Cutting a framed list of records gives the list back, for every parameter record (the spec's layout D12): whatever the
padding bytes, with fewer bytes than a header after the last record or with its padding cut off by the end of the buffer;
and with the zero padding of `frameRecords`. -/
def Obligations.FramedRecordsCutBack : Prop :=
  (∀ (P : Params) (xs : List (AncRecord × Bytes)),
      (∀ x ∈ xs, recordFits P x.1 = true ∧ PadsToAlign P (P.ancHdrBytes + x.1.payload.length) x.2) →
      (∀ tail : Bytes, tail.length < P.ancLenBytes + P.ancLevelBytes + P.ancTypeBytes →
          cutRecords P (framePadded P xs ++ tail) = some (xs.map Prod.fst))
        ∧ (∀ (last : AncRecord) (cut : Bytes), recordFits P last = true →
          (∀ k ≤ cut.length, ¬ P.ancAlign ∣ P.ancHdrBytes + last.payload.length + k) →
          cutRecords P (framePadded P xs ++ recordBytes P last ++ cut) = some (xs.map Prod.fst ++ [last])))
    ∧ (∀ (P : Params) (recs : List AncRecord),
      (∀ r ∈ recs, recordFits P r = true) → cutRecords P (frameRecords P recs) = some recs)

/-- R102: a record of another tag contributes nothing, wherever it stands and whatever its payload. -/
def Obligations.OtherTagsContributeNothing : Prop :=
  ∀ (P : Params) (before after : List AncRecord) (r : AncRecord),
    ¬ (r.level = P.tsLevel ∧ r.type = P.tsType) →
    selectTimestamp P (before ++ r :: after) = selectTimestamp P (before ++ after)

/-- With one timestamping record in the list, the result is ShortRecord exactly when its payload is shorter than three entries.
That a shorter payload fails so is the source's rule (spec/42_timestamp.md, R103); that a longer one than three entries does
not is the spec's decision D15 (log 16). -/
def Obligations.ShortRecordExactlyWhenShort : Prop :=
  ∀ (P : Params) (before after : List AncRecord) (r : AncRecord),
    (∀ x ∈ before ++ after, ¬ (x.level = P.tsLevel ∧ x.type = P.tsType)) →
    r.level = P.tsLevel → r.type = P.tsType →
    (selectTimestamp P (before ++ r :: after) = .error .shortRecord
      ↔ r.payload.length < 3 * (P.tsSecBytes + P.tsNsecBytes))

/-- R105: the result is Missing exactly when no timestamping record is present at all, the empty list included; so it is for
an empty buffer or one too short to hold a record header. -/
def Obligations.MissingExactlyWhenAbsent : Prop :=
  ∀ (P : Params) (recs : List AncRecord),
    (selectTimestamp P recs = .error .missing ↔ ∀ r ∈ recs, ¬ (r.level = P.tsLevel ∧ r.type = P.tsType))
      ∧ ∀ a : Bytes, a.length < P.ancHdrBytes → extractTimestamp P a = some (.error .missing)

/-- Once a timestamping record has decided, bytes after the buffer change nothing (spec/42_timestamp.md: records after the
found one are never read; the spec's D14). -/
def Obligations.DecidedExtractIgnoresTail : Prop :=
  ∀ (P : Params) (a tail : Bytes) (r : Except TimestampError HardwareTimestamp),
    extractTimestamp P a = some r → r ≠ .error .missing → extractTimestamp P (a ++ tail) = some r

/-- The source's two byte-level examples with the default framing (spec/95_test_vectors.md V30, V31): (3, 300), and
ShortRecord for two entries. -/
def Obligations.SourceTimestampExamples : Prop :=
  extractTimestamp Params.default
      (recordBytes Params.default ⟨1, 37,
        toLE 8 1 ++ toLE 8 100 ++ toLE 8 2 ++ toLE 8 200 ++ toLE 8 3 ++ toLE 8 300⟩) = some (.ok ⟨3, 300⟩)
    ∧ extractTimestamp Params.default
      (recordBytes Params.default ⟨1, 37, toLE 8 1 ++ toLE 8 100 ++ toLE 8 2 ++ toLE 8 200⟩) = some (.error .shortRecord)

/-! ### BUILDSYNC (spec/43_assembly.md) -/

/-- R116, R117, R118: BUILDSYNC answers a frame with the listed constants, the derived port identity and a zero origin
timestamp. -/
def Obligations.BuildSyncListedFields : Prop :=
  ∀ (source : MacAddress) (sequenceId : U16) (s : State), ∃ f : EthernetFrame,
    exec (.buildSync source sequenceId) s
        = .next { s with responses := s.responses ++ [.ok (.frame f)], inProgress := none }
      ∧ f.destination = #v[0x01, 0x80, 0xC2, 0x00, 0x00, 0x0E]
      ∧ f.payload.header.majorSdoId = 1 ∧ f.payload.header.versionPtp = 2 ∧ f.payload.header.minorVersionPtp = 1
      ∧ f.payload.header.messageLength = 44 ∧ f.payload.header.domainNumber = 0
      ∧ f.payload.header.logMessagePeriod.toInt = -3 ∧ f.payload.header.correctionField.toInt = 0
      ∧ f.payload.header.sourcePortIdentity = { clockIdentity := insertFFFE source, portNumber := 1 }
      ∧ f.payload.originTimestamp = { secondsMsb := 0, secondsLsb := 0, nanoseconds := 0 }

/-- The fields the source does not list: the spec's decision D17 (log 17), and the two operands carried. -/
def Obligations.BuildSyncUnlistedFields : Prop :=
  ∀ (source : MacAddress) (sequenceId : U16) (s : State), ∃ f : EthernetFrame,
    exec (.buildSync source sequenceId) s
        = .next { s with responses := s.responses ++ [.ok (.frame f)], inProgress := none }
      ∧ f.source = source ∧ f.payload.header.sequenceId = sequenceId
      ∧ validFrame f = true ∧ f.payload.header.messageType = 0 ∧ f.payload.header.minorSdoId = 0
      ∧ f.payload.header.flags = #v[0, 0] ∧ f.payload.header.messageTypeSpecific = #v[0, 0, 0, 0]
      ∧ f.payload.header.controlField = 0

/-- The 58 bytes of a default Sync, for every address and sequence number (spec/95_test_vectors.md V20, V51 are two of
them; the unlisted fields are D17). -/
def Obligations.BuildSyncBytes : Prop :=
  ∀ (m : MacAddress) (n : U16),
    encodeFrame (defaultSync m n)
      = ([0x01, 0x80, 0xC2, 0x00, 0x00, 0x0E] : Bytes) ++ m.toList ++ ([0x88, 0xF7, 0x10, 0x12, 0x00, 0x2C] : Bytes)
        ++ List.replicate 16 (0 : Byte) ++ ([m[0], m[1], m[2], 0xFF, 0xFE, m[3], m[4], m[5], 0x00, 0x01] : Bytes)
        ++ bigEndianSlices n ++ ([0x00, 0xFD] : Bytes) ++ List.replicate 10 (0 : Byte)

/-- Two frames built for one address differ only in sequenceId, and their bytes only at offsets 44 and 45
(spec/95_test_vectors.md V52, inferred from the rules of spec/43_assembly.md). -/
def Obligations.BuildSyncDiffersOnlyInSequence : Prop :=
  ∀ (m : MacAddress) (n n' : U16),
    defaultSync m n' = { defaultSync m n with payload := { (defaultSync m n).payload with header :=
        { (defaultSync m n).payload.header with sequenceId := n' } } }
      ∧ ∀ i, i ≠ 44 → i ≠ 45 → byteAt (encodeFrame (defaultSync m n')) i = byteAt (encodeFrame (defaultSync m n)) i

/-! ### Requests, steps and reset -/

/-- A few table words and what they decode to (codes: the spec's D3; zero operands: log 14). -/
def Obligations.TableWordsDecode : Prop :=
  decodeTableWord 8 0b00000000 = some (.derive zeroMac)
    ∧ decodeTableWord 8 0b00000010 = some (.decode [])
    ∧ decodeTableWord 8 0b00000011 = some (.extract [])
    ∧ decodeTableWord 8 0b00000100 = some (.buildSync zeroMac 0)
    ∧ decodeTableWord 8 0b00000101 = none

/-- Decoding and encoding requests agree in both directions (typed operands: log 1; codes: D3). -/
def Obligations.RequestCodecAgrees : Prop :=
  (∀ i : Instr, decodeRequest (encodeRequest i) = .ok i)
    ∧ (∀ (q : Request) (i : Instr), decodeRequest q = .ok i → encodeRequest i = q)

/-- A transaction whose code is 5, 6 or 7 is refused by name, with no response (the spec's D3), whatever its operands. -/
def Obligations.ReservedCodesRefused : Prop :=
  ∀ (s : State) (q : Request), s.inProgress = some q → s.host.head? ≠ some .reset → 5 ≤ q.op.toNat →
    step s = .refused (.noInstruction (.reservedOperation q.op))

/-- A transaction whose byte sequence is over its bound is refused by name (log 10, from S13, D9, D12). -/
def Obligations.OverlongOperandsRefused : Prop :=
  (∀ (s : State) (b : Bytes) (m : Nat), s.inProgress = some (encodeRequest (.decode b)) →
      s.host.head? ≠ some .reset → s.params.rxMax = some m → m < b.length →
      step s = .refused (.notPresentable .overRxMax))
    ∧ (∀ (s : State) (a : Bytes) (m : Nat), s.inProgress = some (encodeRequest (.extract a)) →
      s.host.head? ≠ some .reset → s.params.ancMax = some m → m < a.length →
      step s = .refused (.notPresentable .overAncMax))

/-- A step runs the decoded instruction: when the transaction in progress decodes to an instruction that can be presented
and no reset arrives, the step is `exec` of it, with a leading wait of the host used up (model's conventions, logs 2, 3, 8). -/
def Obligations.StepRunsTheDecodedInstruction : Prop :=
  ∀ (s : State) (q : Request) (i : Instr), s.inProgress = some q → decodeRequest q = .ok i → i.WellFormed s.params →
    (∀ rest, s.host = .wait :: rest → step s = exec i { s with host := rest })
      ∧ (s.host.head? ≠ some .wait → s.host.head? ≠ some .reset → step s = exec i s)

/-- What an idle block does: it takes a presented request, lets a wait pass, and stays as it is with nothing to do (model's
conventions, logs 2, 3, 4). -/
def Obligations.IdleBlockTakesRequests : Prop :=
  ∀ s : State, s.inProgress = none →
    (∀ q rest, s.host = .request q :: rest → step s = .next { s with inProgress := some q, host := rest })
      ∧ (∀ rest, s.host = .wait :: rest → step s = .next { s with host := rest })
      ∧ (s.host = [] → step s = .next s)

/-- A reset, during a transaction or not, leaves the block idle and gives no response (the spec's D19; logs 3, 7). -/
def Obligations.ResetAbandonsTransaction : Prop :=
  ∀ (s : State) (rest : List HostAction), s.host = .reset :: rest →
    step s = .next { s with inProgress := none, host := rest }

/-- A request abandoned by a reset and presented again is given the response it would have had (the spec's D19; the steps:
logs 2, 3). -/
def Obligations.RequestRepeatedAfterReset : Prop :=
  ∀ (s t : State) (q : Request) (rest : List HostAction), s.inProgress = some q → rest.head? ≠ some .reset →
    serve q s = .next t →
    ∃ u, Sys2Proof.core.run 3 { s with host := .reset :: .request q :: rest } = .next u
      ∧ u.responses = t.responses ∧ u.inProgress = none

/-- State.reset: no transaction in progress (the spec's D19); every parameter has the default of spec/00_scope.md section 4
(the spec's D7, D9, D11, D12, D13; log 24), the two sums among them; the empty lists, and that the parameters stand in the
state, are the model's choice (logs 2, 5, 6). -/
def Obligations.ResetStateValues : Prop :=
  State.reset.inProgress = none ∧ State.reset.host = [] ∧ State.reset.responses = []
    ∧ State.reset.params.hostByteOrder = .little
    ∧ State.reset.params.rxMax = none ∧ State.reset.params.ancMax = none
    ∧ State.reset.params.ancLenBytes = 8 ∧ State.reset.params.ancLevelBytes = 4 ∧ State.reset.params.ancTypeBytes = 4
    ∧ State.reset.params.ancHdrBytes = 16 ∧ State.reset.params.ancAlign = 8 ∧ State.reset.params.ancOrder = .little
    ∧ State.reset.params.tsLevel = 1 ∧ State.reset.params.tsType = 37
    ∧ State.reset.params.tsSecBytes = 8 ∧ State.reset.params.tsNsecBytes = 8 ∧ State.reset.params.tsEntryBytes = 16

/-- An instruction that gives a next state changes only the transaction: one response is appended and nothing is in
progress; parameters and host actions stay (the block keeps nothing else: spec/10_state.md sections 1 and 2). -/
def Obligations.InstructionFrame : Prop :=
  ∀ (i : Instr) (s t : State), exec i s = .next t →
    t.params = s.params ∧ t.host = s.host ∧ t.inProgress = none ∧ ∃ r, t.responses = s.responses ++ [r]

/-- A step gives at most one response, and only by ending the transaction in progress; earlier responses never change
(the spec's inference of atomicity, spec/20_memory.md section 4). -/
def Obligations.StepGivesAtMostOneResponse : Prop :=
  ∀ s t : State, step s = .next t →
    t.params = s.params
      ∧ (t.responses = s.responses
        ∨ ((∃ r, t.responses = s.responses ++ [r]) ∧ s.inProgress.isSome = true ∧ t.inProgress = none))

/-- The response depends on the request and the parameters only, never on an earlier transaction, an error among them, nor
on what the host will do (the spec's decisions D2, D18, D20). -/
def Obligations.ResponseIndependentOfHistory : Prop :=
  ∀ s s' t : State, s.params = s'.params → s.inProgress = s'.inProgress → s.inProgress ≠ none →
    s.host.head? ≠ some .reset → s'.host.head? ≠ some .reset → step s = .next t →
    ∃ t' r, step s' = .next t' ∧ t.responses = s.responses ++ [r] ∧ t'.responses = s'.responses ++ [r]

/-- Which operation gives which error, and when: SizeMismatch only DECODE, ShortRecord and Missing only EXTRACT; DERIVE,
ENCODE and BUILDSYNC give none. That errors carry no payload is the spec's D10. -/
def Obligations.ErrorsBelongToTheirOperation : Prop :=
  ∀ (i : Instr) (s : State) (e : OpError),
    exec i s = .next { s with responses := s.responses ++ [.error e], inProgress := none } →
    (∃ b, i = .decode b ∧ b.length ≠ 58 ∧ e = .decode .sizeMismatch)
      ∨ (∃ a, i = .extract a ∧ wellFramed s.params a = true ∧ (e = .timestamp .shortRecord ∨ e = .timestamp .missing))

/-- The four status codes, pairwise distinct outcomes (the spec's D4): OK for every result, one code for each error. -/
def Obligations.StatusCodes : Prop :=
  (∀ v : Results, (Response.ok v).status = 0b00#2)
    ∧ (Response.error (.decode .sizeMismatch)).status = 0b01#2
    ∧ (Response.error (.timestamp .shortRecord)).status = 0b10#2
    ∧ (Response.error (.timestamp .missing)).status = 0b11#2
    ∧ (∀ e e' : OpError, (Response.error e).status = (Response.error e').status → e = e')

/-! ### The machine as a whole -/

/-- Every step keeps the shape of every response given: FF FE in a derived identity, 58 bytes with 88 F7 in an encoded
frame, members in range in a timestamp (their widths are the spec's D13). -/
def Obligations.StepKeepsResponsesShaped : Prop :=
  ∀ s t : State, ResponsesShaped s → step s = .next t → ResponsesShaped t

/-- The reset state has the shape invariant and keeps the host's duties (its empty lists: logs 2, 5). -/
def Obligations.ResetIsSafe : Prop := ResponsesShaped State.reset ∧ HostKeepsDuties State.reset

/-- While the host keeps its duties every step gives a next state, in which they are still kept: the block never stops on
a dutiful host (duties H1 and H3 of spec/70_reset_and_hazards.md section 2, by the spec's D3, D16). That operands of the
operation's type and within the size bounds count among the duties is the model's choice (logs 9, 10). -/
def Obligations.DutifulHostIsAlwaysServed : Prop :=
  ∀ s : State, HostKeepsDuties s → ∃ t, step s = .next t ∧ HostKeepsDuties t

/-- A step is refused exactly when a transaction that breaks a duty is in progress and no reset takes it away (the spec's D3,
D16). That operands of another type, and byte sequences over `RX_MAX` or `ANC_MAX`, count as broken duties is the model's
choice (logs 9, 10): spec/70_reset_and_hazards.md section 2 lists neither. -/
def Obligations.RefusedExactlyOutsideDuties : Prop :=
  ∀ s : State,
    (∃ r, step s = .refused r)
      ↔ ((∃ q, s.inProgress = some q ∧ requestServed s.params q = false) ∧ s.host.head? ≠ some .reset)

/-- Every transaction of a dutiful host ends: after two steps for each host action and one more, nothing is in progress and
nothing is left to do (the spec's D21: the one liveness property). The count of steps, two for a transaction, is the model's
(log 3), and so are the host's list (log 2) and the duties of logs 9 and 10. -/
def Obligations.EveryTransactionEnds : Prop :=
  ∀ s : State, HostKeepsDuties s →
    ∃ t, Sys2Proof.core.run (2 * s.host.length + 1) s = .next t ∧ t.inProgress = none ∧ t.host = []

/-- Requests presented one after another are each answered with the response they have alone, in the order presented,
after whatever was answered before: a run leaves exactly the list of responses (the spec's D1, D20; two steps for each
transaction: log 3; the host's list: log 2; the list of responses: log 5). -/
def Obligations.RunAnswersEachRequestInOrder : Prop :=
  ∀ (s : State) (is : List Instr) (rs : List Response), s.inProgress = none → s.host = presentAll is →
    (∀ i ∈ is, i.WellFormed s.params) → is.map (responseTo s.params) = rs.map some →
    Sys2Proof.core.run (2 * is.length) s = .next { s with host := [], responses := s.responses ++ rs }
end

