-- ==== Sys2Proof/Laws/Bytes.lean ====
section
/-! SUPPORT. Byte-sequence access, byte order and signed words: what each operation of Machine/Ops.lean does, said once. -/

namespace Sys2Proof.Machine

/-! ### MemRead -/

@[simp] theorem memRead_length (b : Bytes) (off n : Nat) : (memRead b off n).length = min n (b.length - off) := by
  simp [memRead]

theorem memRead_length_le (b : Bytes) (off n : Nat) : (memRead b off n).length ≤ n := by
  rw [memRead_length]; exact Nat.min_le_left _ _

/-- A read that ends inside the first part of a concatenation does not see the second. -/
theorem memRead_append_left (a b : Bytes) (off n : Nat) (h : off + n ≤ a.length) :
    memRead (a ++ b) off n = memRead a off n := by
  unfold memRead
  rw [List.drop_append_of_le_length (by omega), List.take_append_of_le_length (by simp; omega)]

/-- A read that starts in the second part of a concatenation does not see the first. -/
theorem memRead_append_right (a b : Bytes) (off n : Nat) (h : a.length ≤ off) :
    memRead (a ++ b) off n = memRead b (off - a.length) n := by
  unfold memRead
  rw [List.drop_append, List.drop_eq_nil_of_le h, List.nil_append]

theorem memRead_self (b : Bytes) : memRead b 0 b.length = b := by simp [memRead]

/-- Two adjacent reads are one read. -/
theorem memRead_add (b : Bytes) (off m n : Nat) : memRead b off m ++ memRead b (off + m) n = memRead b off (m + n) := by
  unfold memRead
  rw [← List.drop_drop, List.take_add]

/-- Reading a raw array is reading its bytes, inside the sequence. -/
theorem readArr_toList (b : Bytes) (off n : Nat) (h : off + n ≤ b.length) : (readArr b off n).toList = memRead b off n := by
  rw [readArr, Vector.toList_ofFn]
  apply List.ext_getElem
  · simp; omega
  · intro i h1 h2
    simp at h1
    simp [memRead, byteAt, List.getElem?_eq_getElem (show off + i < b.length by omega)]

/-! ### Byte order -/

@[simp] theorem toBE_length (n v : Nat) : (toBE n v).length = n := by
  induction n with
  | zero => rfl
  | succ n ih => simp [toBE, ih]

@[simp] theorem toLE_length (n v : Nat) : (toLE n v).length = n := by
  induction n generalizing v with
  | zero => rfl
  | succ n ih => simp [toLE, ih]

@[simp] theorem toOrd_length (o : ByteOrder) (n v : Nat) : (toOrd o n v).length = n := by
  cases o <;> simp [toOrd]

theorem fromBE_lt (b : Bytes) : fromBE b < 256 ^ b.length := by
  induction b with
  | nil => simp [fromBE]
  | cons x xs ih =>
    have hx : x.toNat ≤ 255 := by have := x.isLt; omega
    have := Nat.mul_le_mul_right (256 ^ xs.length) hx
    simp only [fromBE, List.length_cons, Nat.pow_succ]
    omega

theorem fromLE_lt (b : Bytes) : fromLE b < 256 ^ b.length := by
  induction b with
  | nil => simp [fromLE]
  | cons x xs ih =>
    have hx : x.toNat ≤ 255 := by have := x.isLt; omega
    simp only [fromLE, List.length_cons, Nat.pow_succ]
    omega

/-- A word is below 256 to the number of its bytes, in either order. -/
theorem fromOrd_lt (o : ByteOrder) (b : Bytes) : fromOrd o b < 256 ^ b.length := by
  cases o
  · exact fromLE_lt b
  · exact fromBE_lt b

theorem fromBE_toBE (n v : Nat) : fromBE (toBE n v) = v % 256 ^ n := by
  induction n with
  | zero => simp [toBE, fromBE, Nat.mod_one]
  | succ n ih =>
    simp only [toBE, fromBE, toBE_length, ih, BitVec.toNat_ofNat, Nat.reducePow]
    rw [Nat.pow_succ, Nat.mod_mul, Nat.mul_comm (v / 256 ^ n % 256)]
    exact Nat.add_comm _ _

theorem fromLE_toLE (n v : Nat) : fromLE (toLE n v) = v % 256 ^ n := by
  induction n generalizing v with
  | zero => simp [toLE, fromLE, Nat.mod_one]
  | succ n ih =>
    simp only [toLE, fromLE, ih, BitVec.toNat_ofNat, Nat.reducePow]
    rw [Nat.pow_succ, Nat.mul_comm (256 ^ n), Nat.mod_mul]

/-- A word written and read back in the same order is the value modulo its width. -/
theorem fromOrd_toOrd (o : ByteOrder) (n v : Nat) : fromOrd o (toOrd o n v) = v % 256 ^ n := by
  cases o
  · exact fromLE_toLE n v
  · exact fromBE_toBE n v

theorem toBE_mod (n v : Nat) : toBE n (v % 256 ^ n) = toBE n v := by
  suffices h : ∀ m, n ≤ m → toBE n (v % 256 ^ m) = toBE n v from h n (Nat.le_refl n)
  induction n with
  | zero => intro m _; rfl
  | succ n ih =>
    intro m hm
    simp only [toBE]
    rw [ih m (by omega)]
    congr 1
    apply BitVec.eq_of_toNat_eq
    rw [BitVec.toNat_ofNat, BitVec.toNat_ofNat, show m = n + (m - n - 1 + 1) by omega, Nat.pow_add,
      Nat.mod_mul_right_div_self, show (2 : Nat) ^ 8 = 256 from rfl, Nat.mod_mod_of_dvd]
    exact ⟨256 ^ (m - n - 1), by rw [Nat.pow_succ, Nat.mul_comm]⟩

theorem toBE_fromBE (b : Bytes) : toBE b.length (fromBE b) = b := by
  induction b with
  | nil => rfl
  | cons x xs ih =>
    have hlt := fromBE_lt xs
    simp only [List.length_cons, toBE, fromBE]
    congr 1
    · rw [Nat.mul_comm, Nat.mul_add_div (by omega), Nat.div_eq_of_lt hlt]; simp
    · rw [← toBE_mod, Nat.mul_comm, Nat.mul_add_mod, Nat.mod_eq_of_lt hlt, ih]

/-- A 2-byte word read as a `u16` and written again is the two bytes. -/
theorem encU16_decU16 (w : Bytes) (off : Nat) (h : off + 2 ≤ w.length) : encU16 (decU16 w off) = memRead w off 2 := by
  have hl : (memRead w off 2).length = 2 := by rw [memRead_length]; omega
  have hlt := fromBE_lt (memRead w off 2)
  rw [hl] at hlt
  rw [encU16, decU16, BitVec.toNat_ofNat, Nat.mod_eq_of_lt (by omega), ← hl, hl]
  conv_rhs => rw [← toBE_fromBE (memRead w off 2), hl]

/-- A 4-byte word read as a `u32` and written again is the four bytes. -/
theorem encU32_decU32 (w : Bytes) (off : Nat) (h : off + 4 ≤ w.length) : encU32 (decU32 w off) = memRead w off 4 := by
  have hl : (memRead w off 4).length = 4 := by rw [memRead_length]; omega
  have hlt := fromBE_lt (memRead w off 4)
  rw [hl] at hlt
  rw [encU32, decU32, BitVec.toNat_ofNat, Nat.mod_eq_of_lt (by omega)]
  conv_rhs => rw [← toBE_fromBE (memRead w off 4), hl]

@[simp] theorem encU16_length (v : U16) : (encU16 v).length = 2 := by simp [encU16]
@[simp] theorem encU32_length (v : U32) : (encU32 v).length = 4 := by simp [encU32]
@[simp] theorem encI64_length (v : I64) : (encI64 v).length = 8 := by simp [encI64]

theorem fromBE_encU16 (v : U16) : fromBE (encU16 v) = v.toNat := by
  rw [encU16, fromBE_toBE]; exact Nat.mod_eq_of_lt v.isLt
theorem fromBE_encU32 (v : U32) : fromBE (encU32 v) = v.toNat := by
  rw [encU32, fromBE_toBE]; exact Nat.mod_eq_of_lt v.isLt

/-! ### Signed words -/

/-- `as_signed_N` of an N-bit pattern is in the range of `iN`. -/
theorem asSigned_range (N u : Nat) (hN : 0 < N) (hu : u < 2 ^ N) :
    -(2 ^ (N - 1)) ≤ asSigned N u ∧ asSigned N u < 2 ^ (N - 1) := by
  obtain ⟨n, rfl⟩ : ∃ n, N = n + 1 := ⟨N - 1, by omega⟩
  have hp : ((2 ^ n : Nat) : Int) = 2 ^ n := by push_cast; rfl
  simp only [asSigned, Nat.add_sub_cancel, Nat.pow_succ, Int.pow_succ] at *
  split <;> omega

theorem asUnsigned_lt (N : Nat) (s : Int) : asUnsigned N s < 2 ^ N := by
  have hp : ((2 ^ N : Nat) : Int) = 2 ^ N := by push_cast; rfl
  have h0 : (0 : Int) < 2 ^ N := by positivity
  have h1 := Int.emod_nonneg s (show (2 ^ N : Int) ≠ 0 by omega)
  have h2 := Int.emod_lt_of_pos s h0
  unfold asUnsigned
  omega

/-- `as_unsigned_N` is the inverse of `as_signed_N` (R7). -/
theorem asUnsigned_asSigned (N u : Nat) (hu : u < 2 ^ N) : asUnsigned N (asSigned N u) = u := by
  have hp : ((2 ^ N : Nat) : Int) = 2 ^ N := by push_cast; rfl
  unfold asSigned asUnsigned
  split
  · rw [Int.emod_eq_of_lt (by omega) (by omega)]; omega
  · rw [Int.sub_emod_right, Int.emod_eq_of_lt (by omega) (by omega)]; omega

/-- `as_signed_N` is the inverse of `as_unsigned_N` (R7). -/
theorem asSigned_asUnsigned (N : Nat) (s : Int) (hN : 0 < N) (h1 : -(2 ^ (N - 1)) ≤ s) (h2 : s < 2 ^ (N - 1)) :
    asSigned N (asUnsigned N s) = s := by
  obtain ⟨n, rfl⟩ : ∃ n, N = n + 1 := ⟨N - 1, by omega⟩
  have hp : ((2 ^ n : Nat) : Int) = 2 ^ n := by push_cast; rfl
  simp only [asSigned, asUnsigned, Nat.add_sub_cancel, Int.pow_succ] at *
  rcases Int.lt_or_le s 0 with hs | hs
  · rw [← Int.add_emod_right, Int.emod_eq_of_lt (by omega) (by omega)]
    split <;> omega
  · rw [Int.emod_eq_of_lt hs (by omega)]
    split <;> omega

/-- The least multiple: not less, and less than one step above (R70). -/
theorem roundUp_spec (x m : Nat) (hm : 0 < m) : x ≤ roundUp x m ∧ roundUp x m < x + m ∧ m ∣ roundUp x m := by
  unfold roundUp
  have h1 := Nat.div_add_mod (x + (m - 1)) m
  have h2 := Nat.mod_lt (x + (m - 1)) hm
  rw [Nat.mul_comm] at h1
  exact ⟨by omega, by omega, Nat.dvd_mul_left _ _⟩

/-- It is the one multiple within a step above. -/
theorem roundUp_eq (x k m : Nat) (hk : k < m) (hd : m ∣ x + k) : roundUp x m = x + k := by
  obtain ⟨h1, h2, h3⟩ := roundUp_spec x m (by omega)
  obtain ⟨a, ha⟩ := hd
  obtain ⟨b, hb⟩ := h3
  have h4 : m * b < m * (a + 1) := by rw [Nat.mul_succ]; omega
  have h5 : m * a < m * (b + 1) := by rw [Nat.mul_succ]; omega
  have h6 := Nat.lt_of_mul_lt_mul_left h4
  have h7 := Nat.lt_of_mul_lt_mul_left h5
  rw [hb, ha, show a = b by omega]

/-- A step with no multiple up to `x + k` goes past it. -/
theorem lt_roundUp (x k m : Nat) (hm : 0 < m) (h : ∀ j ≤ k, ¬ m ∣ x + j) : x + k < roundUp x m := by
  obtain ⟨h1, _, h3⟩ := roundUp_spec x m hm
  refine Nat.lt_of_not_le fun hle => h (roundUp x m - x) (by omega) ?_
  rwa [Nat.add_sub_cancel' h1]

end Sys2Proof.Machine
end

