-- ==== Sys2Proof/Laws/Codec.lean ====
section
/-! SUPPORT. The lengths of the parts of an encoded frame, and where the parts lie in it. -/

namespace Sys2Proof.Machine

@[simp] theorem encodeEthernetHeader_length (f : EthernetFrame) : (encodeEthernetHeader f).length = 14 := by
  simp [encodeEthernetHeader]

@[simp] theorem encodePtpHeader_length (h : PtpHeader) : (encodePtpHeader h).length = 34 := by
  simp [encodePtpHeader]

@[simp] theorem encodeOriginTimestamp_length (t : OriginTimestamp) : (encodeOriginTimestamp t).length = 10 := by
  simp [encodeOriginTimestamp]

/-- ENCODE's result has the one frame length (R85). -/
@[simp] theorem encodeFrame_length (f : EthernetFrame) : (encodeFrame f).length = 58 := by
  simp [encodeFrame]

/-- A read inside the Ethernet header. -/
theorem memRead_encodeFrame_ethernet (f : EthernetFrame) (off n : Nat) (h : off + n ≤ 14) :
    memRead (encodeFrame f) off n = memRead (encodeEthernetHeader f) off n := by
  rw [encodeFrame, memRead_append_left _ _ _ _ (by simp; omega), memRead_append_left _ _ _ _ (by simp; omega)]

/-- A read inside the PTP header, at an offset counted from the start of the PTP message. -/
theorem memRead_encodeFrame_header (f : EthernetFrame) (off n : Nat) (h : off + n ≤ 34) :
    memRead (encodeFrame f) (14 + off) n = memRead (encodePtpHeader f.payload.header) off n := by
  rw [encodeFrame, memRead_append_left _ _ _ _ (by simp; omega), memRead_append_right _ _ _ _ (by simp)]
  simp

/-- A read inside the origin timestamp. -/
theorem memRead_encodeFrame_origin (f : EthernetFrame) (off n : Nat) :
    memRead (encodeFrame f) (48 + off) n = memRead (encodeOriginTimestamp f.payload.originTimestamp) off n := by
  rw [encodeFrame, memRead_append_right _ _ _ _ (by simp)]
  simp

/-- DECODE checks the length and nothing else (R89, R91). -/
theorem decodeFrame_ok_iff (b : Bytes) (f : EthernetFrame) :
    decodeFrame b = .ok f ↔ b.length = 58 ∧ f = decodeFields b := by
  unfold decodeFrame; split <;> simp_all [eq_comm]

theorem decodeFrame_error_iff (b : Bytes) (e : DecodeError) : decodeFrame b = .error e ↔ b.length ≠ 58 := by
  cases e; unfold decodeFrame; split <;> simp_all

end Sys2Proof.Machine
end

