-- ==== Sys2Proof/Laws/State.lean ====
section
/-! SUPPORT. One lemma per field of State per update, and what each transaction operation does. -/

namespace Sys2Proof.Machine

@[simp] theorem State.respond_params (s : State) (r : Response) : (s.respond r).params = s.params := rfl
@[simp] theorem State.respond_inProgress (s : State) (r : Response) : (s.respond r).inProgress = none := rfl
@[simp] theorem State.respond_host (s : State) (r : Response) : (s.respond r).host = s.host := rfl
@[simp] theorem State.respond_responses (s : State) (r : Response) :
    (s.respond r).responses = s.responses ++ [r] := rfl

@[simp] theorem State.answer_eq (s : State) (v : Results) : s.answer v = s.respond (.ok v) := rfl
@[simp] theorem State.raiseError_eq (s : State) (e : OpError) : s.raiseError e = s.respond (.error e) := rfl

@[simp] theorem State.accept_params (s : State) (q : Request) : (s.accept q).params = s.params := rfl
@[simp] theorem State.accept_inProgress (s : State) (q : Request) : (s.accept q).inProgress = some q := rfl
@[simp] theorem State.accept_host (s : State) (q : Request) : (s.accept q).host = s.host.tail := rfl
@[simp] theorem State.accept_responses (s : State) (q : Request) : (s.accept q).responses = s.responses := rfl

@[simp] theorem State.takeReset_params (s : State) : s.takeReset.params = s.params := rfl
@[simp] theorem State.takeReset_inProgress (s : State) : s.takeReset.inProgress = none := rfl
@[simp] theorem State.takeReset_host (s : State) : s.takeReset.host = s.host.tail := rfl
@[simp] theorem State.takeReset_responses (s : State) : s.takeReset.responses = s.responses := rfl

@[simp] theorem State.passWait_params (s : State) : s.passWait.params = s.params := by
  unfold State.passWait; split <;> rfl
@[simp] theorem State.passWait_inProgress (s : State) : s.passWait.inProgress = s.inProgress := by
  unfold State.passWait; split <;> rfl
@[simp] theorem State.passWait_responses (s : State) : s.passWait.responses = s.responses := by
  unfold State.passWait; split <;> rfl

/-- A wait is used up; any other action stays. -/
theorem State.passWait_host (s : State) :
    (∃ rest, s.host = .wait :: rest ∧ s.passWait.host = rest) ∨ (s.host.head? ≠ some .wait ∧ s.passWait = s) := by
  unfold State.passWait
  split
  · rename_i rest h; exact .inl ⟨rest, h, rfl⟩
  · rename_i h
    refine .inr ⟨fun hw => ?_, rfl⟩
    cases hh : s.host with
    | nil => simp [hh] at hw
    | cons a l => simp [hh] at hw; exact h l (by rw [hh, hw])

/-- No action is added by a step the host lets pass. -/
theorem State.passWait_host_subset (s : State) : ∀ h ∈ s.passWait.host, h ∈ s.host := by
  intro h hh
  rcases s.passWait_host with ⟨rest, e, e'⟩ | ⟨_, e⟩
  · rw [e', ] at hh; rw [e]; exact List.mem_cons_of_mem _ hh
  · rw [e] at hh; exact hh

@[simp] theorem State.reset_params : State.reset.params = Params.default := rfl
@[simp] theorem State.reset_inProgress : State.reset.inProgress = none := rfl
@[simp] theorem State.reset_host : State.reset.host = [] := rfl
@[simp] theorem State.reset_responses : State.reset.responses = [] := rfl

end Sys2Proof.Machine
end

