-- ==== Sys2Proof/Laws/Exec.lean ====
section
/-! SUPPORT. What an instruction, a request and a step can do, said once each: the inversion lemmas that statements about
`exec`, `serve` and `step` are derived from. -/

namespace Sys2Proof.Machine

/-- An instruction gives its one response, or is refused where it has none (only EXTRACT, R109). -/
theorem exec_eq (i : Instr) (s : State) :
    exec i s = match responseTo s.params i with
      | some r => .next (s.respond r)
      | none => .refused .illFramedAncillary := by
  cases i with
  | derive m => rfl
  | encode f => rfl
  | decode b => simp only [exec, execDecode, responseTo]; cases decodeFrame b <;> rfl
  | extract a =>
    simp only [exec, execExtract, responseTo]
    rcases extractTimestamp s.params a with _ | (_ | _) <;> rfl
  | buildSync m n => rfl

theorem exec_eq_next (i : Instr) (s t : State) :
    exec i s = .next t ↔ ∃ r, responseTo s.params i = some r ∧ t = s.respond r := by
  rw [exec_eq]; cases responseTo s.params i <;> simp [eq_comm]

/-- Serving a request: it decodes to an instruction that can be presented and has a response. -/
theorem serve_eq_next (q : Request) (s t : State) :
    serve q s = .next t ↔
      ∃ i r, decodeRequest q = .ok i ∧ i.WellFormed s.params ∧ responseTo s.params i = some r ∧ t = s.respond r := by
  unfold serve
  cases decodeRequest q with
  | error e => simp
  | ok i =>
    simp only [Except.ok.injEq, exists_and_left, exists_eq_left']
    cases h : i.illFormed s.params with
    | none => simp only [exec_eq_next, Instr.WellFormed, h, true_and]
    | some w => simp [h]

/-- The four things a step can do. -/
theorem step_cases {s t : State} (h : step s = .next t) :
    (s.host.head? = some .reset ∧ t = s.takeReset)
      ∨ (s.host.head? ≠ some .reset ∧ ∃ q, s.inProgress = some q ∧ serve q s.passWait = .next t)
      ∨ (s.inProgress = none ∧ ∃ q, s.host.head? = some (.request q) ∧ t = s.accept q)
      ∨ (s.inProgress = none ∧ (s.host.head? = some .wait ∨ s.host = []) ∧ t = s.passWait) := by
  obtain ⟨P, ip, host, rs⟩ := s
  rcases host with _ | ⟨_ | _ | _, rest⟩ <;> cases ip <;> simp_all [step]

/-- With a transaction in progress and no reset arriving, a step serves it. -/
theorem step_inProgress (s : State) (q : Request) (hq : s.inProgress = some q) (hr : s.host.head? ≠ some .reset) :
    step s = serve q s.passWait := by
  obtain ⟨P, ip, host, rs⟩ := s
  rcases host with _ | ⟨_ | _ | _, rest⟩ <;> simp_all [step]

/-- A run of any machine goes on with the next state. -/
theorem run_succ_of_next (M : Host.Core) (s t : M.State) (k : Nat) (h : M.step s = .next t) :
    M.run (k + 1) s = M.run k t := by
  simp only [Host.Core.run, h]

/-- A run of the block goes on with the next state. -/
theorem core_run_succ (s t : State) (k : Nat) (h : step s = .next t) :
    Host.Core.run Sys2Proof.core (k + 1) s = Host.Core.run Sys2Proof.core k t :=
  run_succ_of_next Sys2Proof.core s t k h

end Sys2Proof.Machine
end

