-- ==== Sys2Proof/Laws/Operands.lean ====
section
/-! SUPPORT. The operand forms of Machine/Operands.lean: nibble pairs, integer fields and single bytes, each said once. -/

namespace Sys2Proof.Machine

/-! ### Nibble pairs (R55, R56) -/

/-- Packing is putting the high nibble's four bits before the low one's. -/
theorem packNibbles_eq_append (hi lo : U4) : packNibbles hi lo = hi ++ lo := by revert hi lo; decide

theorem lowNibble_append (hi lo : U4) : lowNibble (hi ++ lo : BitVec 8) = lo := by revert hi lo; decide

theorem highNibble_append (hi lo : U4) : highNibble (hi ++ lo : BitVec 8) = hi := by revert hi lo; decide

/-- A byte is its two nibbles. -/
theorem highNibble_append_lowNibble (b : Byte) : highNibble b ++ lowNibble b = b := by revert b; decide +kernel

/-! ### Bit slices and division give the same bytes (R7) -/

theorem toBE_getElem (n v i : Nat) (h : i < (toBE n v).length) : (toBE n v)[i] = BitVec.ofNat 8 (v / 256 ^ (n - 1 - i)) := by
  induction n generalizing i with
  | zero => simp at h
  | succ n ih =>
    cases i with
    | zero => simp [toBE]
    | succ i =>
      simp only [toBE, List.getElem_cons_succ]
      rw [ih]
      congr 3
      omega

theorem bigEndianSlices_eq_toBE {k : Nat} (v : BitVec (8 * k)) : bigEndianSlices v = toBE k v.toNat := by
  apply List.ext_getElem
  · simp [bigEndianSlices]
  · intro i _ h2
    rw [toBE_getElem]
    apply BitVec.eq_of_toNat_eq
    simp only [bigEndianSlices, List.getElem_map, List.getElem_range, BitVec.extractLsb'_toNat,
      Nat.shiftRight_eq_div_pow, BitVec.toNat_ofNat]
    rw [show (256 : Nat) = 2 ^ 8 from rfl, ← Nat.pow_mul]
    congr 3
    omega

theorem bigEndianSlices_injective {k : Nat} {v u : BitVec (8 * k)} (h : bigEndianSlices v = bigEndianSlices u) : v = u := by
  rw [bigEndianSlices_eq_toBE, bigEndianSlices_eq_toBE] at h
  have h' := congrArg fromBE h
  rw [fromBE_toBE, fromBE_toBE, show (256 : Nat) ^ k = 2 ^ (8 * k) by rw [Nat.pow_mul], Nat.mod_eq_of_lt v.isLt,
    Nat.mod_eq_of_lt u.isLt] at h'
  exact BitVec.eq_of_toNat_eq h'

/-! ### Signed fields (R60, R63) -/

theorem asUnsigned_toInt (n : Nat) (v : BitVec n) : asUnsigned n v.toInt = v.toNat := by
  have hp : ((2 ^ n : Nat) : Int) = 2 ^ n := by push_cast; rfl
  have hlt := v.isLt
  unfold asUnsigned
  rw [BitVec.toInt_eq_toNat_cond]
  split
  · rw [Int.emod_eq_of_lt (by omega) (by omega)]; omega
  · rw [hp, Int.sub_emod_right, Int.emod_eq_of_lt (by omega) (by omega)]; omega

theorem encI64_eq (v : I64) : encI64 v = toBE 8 v.toBitVec.toNat := by
  rw [encI64, show v.toInt = v.toBitVec.toInt from rfl, asUnsigned_toInt]

theorem encI8_eq (v : I8) : encI8 v = v.toBitVec := by
  rw [encI8, show v.toInt = v.toBitVec.toInt from rfl, asUnsigned_toInt, BitVec.ofNat_toNat, BitVec.setWidth_eq]

theorem decI64_toInt (w : Bytes) (off : Nat) : (decI64 w off).toInt = asSigned 64 (fromBE (memRead w off 8)) := by
  have hlt := fromBE_lt (memRead w off 8)
  have hle := Nat.pow_le_pow_right (show 0 < 256 by decide) (memRead_length_le w off 8)
  have hr := asSigned_range 64 (fromBE (memRead w off 8)) (by decide) (by omega)
  exact Int64.toInt_ofInt_of_le (by simpa using hr.1) (by simpa using hr.2)

theorem decI8_toInt (w : Bytes) (i : Nat) : (decI8 w i).toInt = asSigned 8 (byteAt w i).toNat := by
  have hr := asSigned_range 8 (byteAt w i).toNat (by decide) (byteAt w i).isLt
  exact Int8.toInt_ofInt_of_le (by simpa using hr.1) (by simpa using hr.2)

/-! ### Single bytes -/

theorem memRead_one (w : Bytes) (i : Nat) (h : i < w.length) : memRead w i 1 = [byteAt w i] := by
  unfold memRead byteAt
  rw [List.drop_eq_getElem_cons h, List.take_succ_cons, List.take_zero]
  simp [h]

end Sys2Proof.Machine
end

