-- ==== Sys2Proof/Laws/PerInstr.lean ====
section
/-! SUPPORT. Statements made per instruction. `LegalCode`: the code the encoder writes for an instruction is one of the five
of spec/30_encoding.md R65, and the code table takes it back to the instruction's operation. -/

namespace Sys2Proof.Laws.LegalCode

def Statement (i : Instr) : Prop :=
  (encodeRequest i).op.toNat < 5 ∧ opOfCode (encodeRequest i).op = .ok i.op

theorem derive (mac : MacAddress) : Statement (.derive mac) := ⟨show (0b000#3).toNat < 5 by decide, rfl⟩
theorem encode (frame : EthernetFrame) : Statement (.encode frame) := ⟨show (0b001#3).toNat < 5 by decide, rfl⟩
theorem decode (bytes : Bytes) : Statement (.decode bytes) := ⟨show (0b010#3).toNat < 5 by decide, rfl⟩
theorem extract (ancillary : Bytes) : Statement (.extract ancillary) := ⟨show (0b011#3).toNat < 5 by decide, rfl⟩
theorem buildSync (source : MacAddress) (sequenceId : U16) : Statement (.buildSync source sequenceId) :=
  ⟨show (0b100#3).toNat < 5 by decide, rfl⟩

end Sys2Proof.Laws.LegalCode
end

