-- ==== Sys2Proof/Laws/Scan.lean ====
section
/-! SUPPORT. The scan of EXTRACT: what the reads of one record give, and that a large enough count of turns changes
nothing (spec/42_timestamp.md R108 "The loop ends"). -/

namespace Sys2Proof.Machine

theorem ancHdrBytes_pos (P : Params) : 0 < P.ancHdrBytes := by
  have := P.ancLenBytes_pos; unfold Params.ancHdrBytes; omega

/-- Both halves of the tag match (R21, R102). -/
theorem isTimestampTag_eq_true (P : Params) (level type : Int) :
    isTimestampTag P level type = true ↔ level = P.tsLevel ∧ type = P.tsType := by
  simp [isTimestampTag]

theorem isTimestampTag_eq_false (P : Params) (level type : Int) :
    isTimestampTag P level type = false ↔ ¬ (level = P.tsLevel ∧ type = P.tsType) := by
  rw [← isTimestampTag_eq_true, Bool.not_eq_true]

/-- A well-framed record moves the offset on by at least its header. -/
theorem nextRecord_gt (P : Params) (a : Bytes) (p : Nat) (h : headerWellFramed P a p = true) : p < nextRecord P a p := by
  have h1 := ancHdrBytes_pos P
  have h2 := roundUp_spec (readHeader P a p).len P.ancAlign P.ancAlign_pos
  simp only [headerWellFramed, decide_eq_true_eq] at h
  unfold nextRecord; omega

/-- Two positive counts of turns that both exceed the bytes left give the same scan. -/
theorem scanFrom_fuel (P : Params) (a : Bytes) (n m p : Nat) (hn : a.length < n + p) (hm : a.length < m + p)
    (n0 : 0 < n) (m0 : 0 < m) : scanFrom P a n p = scanFrom P a m p := by
  have hH : 2 ≤ P.ancHdrBytes := by
    have := P.ancLenBytes_pos; have := P.ancLevelBytes_pos; unfold Params.ancHdrBytes; omega
  induction n generalizing m p with
  | zero => omega
  | succ n ih =>
    obtain ⟨m, rfl⟩ : ∃ k, m = k + 1 := ⟨m - 1, by omega⟩
    simp only [scanFrom]
    split
    · split
      · rename_i h1 h2
        have := nextRecord_gt P a p h2
        rw [ih m (nextRecord P a p) (by omega) (by omega) (by omega) (by omega)]
      · rfl
    · rfl

/-! ### The bytes of one record, read back (R69) -/

theorem recordBytes_length (P : Params) (r : AncRecord) :
    (recordBytes P r).length = P.ancHdrBytes + r.payload.length := by
  simp [recordBytes, Params.ancHdrBytes, Nat.add_assoc]

/-- Reading a word that stands after `pre`. -/
theorem memRead_middle (pre x post : Bytes) (off n : Nat) (h : off = pre.length) (hn : n = x.length) :
    memRead (pre ++ x ++ post) off n = x := by
  subst h hn
  rw [List.append_assoc, memRead_append_right _ _ _ _ (Nat.le_refl _), Nat.sub_self,
    memRead_append_left _ _ _ _ (by omega), memRead_self]

theorem readSigned_toOrd (P : Params) (pre post : Bytes) (off n : Nat) (v : Int) (h : off = pre.length) (hn : 0 < n)
    (h1 : -(2 ^ (8 * n - 1)) ≤ v) (h2 : v < 2 ^ (8 * n - 1)) :
    readSigned P (pre ++ toOrd P.ancOrder n (asUnsigned (8 * n) v) ++ post) off n = v := by
  rw [readSigned, memRead_middle _ _ _ _ _ h (by simp), fromOrd_toOrd, Nat.mod_eq_of_lt,
    asSigned_asUnsigned _ _ (by omega) h1 h2]
  rw [show (256 : Nat) = 2 ^ 8 from rfl, ← Nat.pow_mul]
  exact asUnsigned_lt _ _

/-- The header of a record that fits its words, wherever it starts and whatever follows. -/
theorem readHeader_recordBytes (P : Params) (pre tail : Bytes) (r : AncRecord) (h : recordFits P r = true) :
    readHeader P (pre ++ recordBytes P r ++ tail) pre.length
      = { len := P.ancHdrBytes + r.payload.length, level := r.level, type := r.type } := by
  simp only [recordFits, decide_eq_true_eq] at h
  obtain ⟨hl, ⟨h1, h2⟩, h3, h4⟩ := h
  have e0 := memRead_middle pre (toOrd P.ancOrder P.ancLenBytes (P.ancHdrBytes + r.payload.length))
    (toOrd P.ancOrder P.ancLevelBytes (asUnsigned (8 * P.ancLevelBytes) r.level)
      ++ toOrd P.ancOrder P.ancTypeBytes (asUnsigned (8 * P.ancTypeBytes) r.type) ++ r.payload ++ tail)
    pre.length P.ancLenBytes rfl (by simp)
  have e1 := readSigned_toOrd P (pre ++ toOrd P.ancOrder P.ancLenBytes (P.ancHdrBytes + r.payload.length))
    (toOrd P.ancOrder P.ancTypeBytes (asUnsigned (8 * P.ancTypeBytes) r.type) ++ r.payload ++ tail)
    (pre.length + P.ancLenBytes) P.ancLevelBytes r.level (by simp) P.ancLevelBytes_pos h1 h2
  have e2 := readSigned_toOrd P (pre ++ toOrd P.ancOrder P.ancLenBytes (P.ancHdrBytes + r.payload.length)
      ++ toOrd P.ancOrder P.ancLevelBytes (asUnsigned (8 * P.ancLevelBytes) r.level))
    (r.payload ++ tail) (pre.length + P.ancLenBytes + P.ancLevelBytes) P.ancTypeBytes r.type (by simp; omega)
    P.ancTypeBytes_pos h3 h4
  simp only [List.append_assoc] at e0 e1 e2
  simp only [readHeader, recordBytes, List.append_assoc, e0, e1, e2, fromOrd_toOrd, Nat.mod_eq_of_lt hl]

/-- Such a record is well framed. -/
theorem headerWellFramed_recordBytes (P : Params) (pre tail : Bytes) (r : AncRecord) (h : recordFits P r = true) :
    headerWellFramed P (pre ++ recordBytes P r ++ tail) pre.length = true := by
  rw [headerWellFramed, readHeader_recordBytes P pre tail r h]
  simp [recordBytes_length]

/-- Its payload is read back. -/
theorem readPayload_recordBytes (P : Params) (pre tail : Bytes) (r : AncRecord) (h : recordFits P r = true) :
    readPayload P (pre ++ recordBytes P r ++ tail) pre.length = r.payload := by
  have e := memRead_middle (pre ++ toOrd P.ancOrder P.ancLenBytes (P.ancHdrBytes + r.payload.length)
      ++ toOrd P.ancOrder P.ancLevelBytes (asUnsigned (8 * P.ancLevelBytes) r.level)
      ++ toOrd P.ancOrder P.ancTypeBytes (asUnsigned (8 * P.ancTypeBytes) r.type)) r.payload tail
    (pre.length + P.ancHdrBytes) r.payload.length (by simp [Params.ancHdrBytes]; omega) rfl
  simp only [List.append_assoc] at e
  rw [readPayload, readHeader_recordBytes P pre tail r h, Nat.add_sub_cancel_left]
  simpa only [recordBytes, List.append_assoc] using e

/-- The next record starts at the next multiple of `ANC_ALIGN` (R70). -/
theorem nextRecord_recordBytes (P : Params) (pre tail : Bytes) (r : AncRecord) (h : recordFits P r = true) :
    nextRecord P (pre ++ recordBytes P r ++ tail) pre.length
      = pre.length + roundUp (P.ancHdrBytes + r.payload.length) P.ancAlign := by
  rw [nextRecord, readHeader_recordBytes P pre tail r h]

/-- It starts after the padding bytes that align the record. -/
theorem nextRecord_padded (P : Params) (pre pad tail : Bytes) (r : AncRecord) (h : recordFits P r = true)
    (hp : PadsToAlign P (P.ancHdrBytes + r.payload.length) pad) :
    nextRecord P (pre ++ recordBytes P r ++ (pad ++ tail)) pre.length = (pre ++ recordBytes P r ++ pad).length := by
  rw [nextRecord_recordBytes P pre _ r h, roundUp_eq _ _ _ hp.1 hp.2]
  simp only [List.length_append, recordBytes_length]
  omega

/-- The zeros of `frameRecords` are padding that aligns. -/
theorem padsToAlign_replicate (P : Params) (len : Nat) (b : Byte) :
    PadsToAlign P len (List.replicate (paddingAfter P len) b) := by
  obtain ⟨h1, h2, h3⟩ := roundUp_spec len P.ancAlign P.ancAlign_pos
  simp only [PadsToAlign, List.length_replicate, paddingAfter]
  exact ⟨by omega, by rwa [Nat.add_sub_cancel' h1]⟩

/-! ### The scan over records of other tags (R102) -/

theorem scanFrom_framePadded_after (P : Params) (xs : List (AncRecord × Bytes)) (hx : OtherRecords P xs)
    (pre rest : Bytes) (n : Nat) (hn : n = (pre ++ framePadded P xs ++ rest).length + 1) :
    scanFrom P (pre ++ framePadded P xs ++ rest) n pre.length
      = scanFrom P (pre ++ framePadded P xs ++ rest) n (pre ++ framePadded P xs).length := by
  induction xs generalizing pre with
  | nil => simp [framePadded]
  | cons x xs ih =>
    obtain ⟨hf, ht, hp⟩ := hx x (by simp)
    have e : pre ++ framePadded P (x :: xs) = (pre ++ recordBytes P x.1 ++ x.2) ++ framePadded P xs := by
      simp [framePadded, List.append_assoc]
    have e' : pre ++ framePadded P (x :: xs) ++ rest
        = pre ++ recordBytes P x.1 ++ (x.2 ++ (framePadded P xs ++ rest)) := by
      simp [framePadded, List.append_assoc]
    have ih' := ih (fun y hy => hx y (by simp [hy])) (pre ++ recordBytes P x.1 ++ x.2) (by rw [hn, e])
    rw [← e] at ih'
    rw [← ih', hn, scanFrom]
    have hw := headerWellFramed_recordBytes P pre (x.2 ++ (framePadded P xs ++ rest)) x.1 hf
    have hnext := nextRecord_padded P pre x.2 (framePadded P xs ++ rest) x.1 hf hp
    rw [← e'] at hw hnext
    have hh := readHeader_recordBytes P pre (x.2 ++ (framePadded P xs ++ rest)) x.1 hf
    rw [← e'] at hh
    rw [if_pos (by rw [e']; simp only [List.length_append, recordBytes_length]; omega), if_pos hw, hnext, hh,
      if_neg (by rw [isTimestampTag_eq_true]; exact ht)]
    have hH := ancHdrBytes_pos P
    have hl := recordBytes_length P x.1
    refine scanFrom_fuel P _ _ _ _ ?_ ?_ ?_ ?_ <;> rw [e'] <;> simp only [List.length_append] <;> omega

/-- EXTRACT passes over records of other tags, whatever their padding bytes, and goes on at the end of them. -/
theorem extractTimestamp_framePadded (P : Params) (xs : List (AncRecord × Bytes)) (hx : OtherRecords P xs) (rest : Bytes) :
    extractTimestamp P (framePadded P xs ++ rest)
      = scanFrom P (framePadded P xs ++ rest) ((framePadded P xs ++ rest).length + 1) (framePadded P xs).length := by
  have h := scanFrom_framePadded_after P xs hx [] rest _ rfl
  rw [List.nil_append, List.length_nil] at h
  exact h

end Sys2Proof.Machine
end

