-- ==== Sys2Proof/Tests/Vectors.lean ====
section
/-! SUPPORT. The small states, frames and buffers the tests share; bytes are from spec/95_test_vectors.md (V). -/

namespace Sys2Proof.Tests

open Sys2Proof Sys2Proof.Machine

/-- A state with a request in progress and the host's next actions. -/
def busy (q : Request) (host : List HostAction) : State := { State.reset with inProgress := some q, host := host }

/-- Parameters with both size bounds set. -/
def bounded : Params := { Params.default with rxMax := some 59, ancMax := some 64, rxMax_ge := by decide }

def macA : MacAddress := #v[0xAA, 0xBB, 0xCC, 0xDD, 0xEE, 0xFF]

/-- V20's 58 bytes. -/
def v20 : Bytes :=
  [0x01, 0x80, 0xC2, 0x00, 0x00, 0x0E, 0xAA, 0xBB, 0xCC, 0xDD, 0xEE, 0xFF, 0x88, 0xF7, 0x10, 0x12, 0x00, 0x2C]
    ++ List.replicate 16 0 ++ [0xAA, 0xBB, 0xCC, 0xFF, 0xFE, 0xDD, 0xEE, 0xFF, 0x00, 0x01, 0x00, 0x07, 0x00, 0xFD]
    ++ List.replicate 10 0

/-- V21's frame. -/
def f21 : EthernetFrame where
  destination := #v[0x01, 0x02, 0x03, 0x04, 0x05, 0x06]
  source := #v[0x07, 0x08, 0x09, 0x0A, 0x0B, 0x0C]
  etherType := 0x88F7
  payload :=
    { header :=
        { messageType := 0xB, majorSdoId := 0x3, versionPtp := 0x2, minorVersionPtp := 0xA, messageLength := 0x1234,
          domainNumber := 0x56, minorSdoId := 0x78, flags := #v[0x9A, 0xBC], correctionField := -2,
          messageTypeSpecific := #v[0xDE, 0xAD, 0xBE, 0xEF],
          sourcePortIdentity :=
            { clockIdentity := #v[0x11, 0x22, 0x33, 0x44, 0x55, 0x66, 0x77, 0x88], portNumber := 0xABCD },
          sequenceId := 0xFFFE, controlField := 0x05, logMessagePeriod := -128 }
      originTimestamp := { secondsMsb := 1, secondsLsb := 2, nanoseconds := 999999999 } }

/-- V21's 58 bytes. -/
def v21 : Bytes :=
  [0x01, 0x02, 0x03, 0x04, 0x05, 0x06, 0x07, 0x08, 0x09, 0x0A, 0x0B, 0x0C, 0x88, 0xF7, 0x3B, 0xA2,
   0x12, 0x34, 0x56, 0x78, 0x9A, 0xBC, 0xFF, 0xFF, 0xFF, 0xFF, 0xFF, 0xFF, 0xFF, 0xFE, 0xDE, 0xAD,
   0xBE, 0xEF, 0x11, 0x22, 0x33, 0x44, 0x55, 0x66, 0x77, 0x88, 0xAB, 0xCD, 0xFF, 0xFE, 0x05, 0x80,
   0x00, 0x01, 0x00, 0x00, 0x00, 0x02, 0x3B, 0x9A, 0xC9, 0xFF]

/-- V30's 64 bytes. -/
def v30 : Bytes :=
  [0x40, 0, 0, 0, 0, 0, 0, 0, 0x01, 0, 0, 0, 0x25, 0, 0, 0, 0x01, 0, 0, 0, 0, 0, 0, 0, 0x64, 0, 0, 0, 0, 0, 0, 0,
   0x02, 0, 0, 0, 0, 0, 0, 0, 0xC8, 0, 0, 0, 0, 0, 0, 0, 0x03, 0, 0, 0, 0, 0, 0, 0, 0x2C, 0x01, 0, 0, 0, 0, 0, 0]

/-- V41's first 24 bytes: a record of length 21 with another tag and three bytes of padding. -/
def v41head : Bytes := [0x15, 0, 0, 0, 0, 0, 0, 0, 0, 0, 0, 0, 0x08, 0, 0, 0, 0x01, 0x02, 0x03, 0x04, 0x05, 0, 0, 0]

/-- A record tagged `TS_TAG` with the given payload; the default tag. -/
def tsRecord (payload : Bytes) : AncRecord := { level := 1, type := 37, payload := payload }

/-- The record of V33's first 32 bytes. -/
def otherRecord : AncRecord := { level := 1, type := 29, payload := List.replicate 16 5 }

end Sys2Proof.Tests
end

