-- ==== Sys2Proof/Tests/Slice0.lean ====
section
/-! SUPPORT. Tests of the model. Expected values are from spec/95_test_vectors.md (T, V) or written out by hand from the
rule named. -/

-- Many small closed facts: checked one after another, not each in a thread of its own.
set_option Elab.async false

namespace Sys2Proof.Tests

open Sys2Proof Sys2Proof.Machine

/-! ### The sizes of spec/00_scope.md section 4 -/

theorem test_sizes_add_up : ethHdrBytes + ptpHdrBytes + originTsBytes = frameBytes ∧ ptpHdrBytes + originTsBytes = syncBytes
    ∧ macBytes + macBytes + 2 = ethHdrBytes ∧ macBytes + 2 = cidBytes := by decide

theorem test_default_params : Params.default.ancHdrBytes = 16 ∧ Params.default.tsEntryBytes = 16 := by decide

/-! ### Decoding: one request for each row of the table, its code written bit by bit (R65) -/

theorem test_decode_derive : decodeRequest { op := 0b000#3, operands := .mac macA } = .ok (.derive macA) := by decide
theorem test_decode_encode : decodeRequest { op := 0b001#3, operands := .frame f21 } = .ok (.encode f21) := by decide +kernel
theorem test_decode_decode : decodeRequest { op := 0b010#3, operands := .bytes v30 } = .ok (.decode v30) := by decide +kernel
theorem test_decode_extract : decodeRequest { op := 0b011#3, operands := .bytes v30 } = .ok (.extract v30) := by
  decide +kernel
theorem test_decode_buildSync :
    decodeRequest { op := 0b100#3, operands := .macSeq macA 7 } = .ok (.buildSync macA 7) := by decide

theorem test_decode_reserved : decodeRequest { op := 0b101#3, operands := .mac macA } = .error (.reservedOperation 5)
    ∧ decodeRequest { op := 0b111#3, operands := .bytes [] } = .error (.reservedOperation 7) := by decide

/-- Typed operands (R23): DERIVE takes no byte sequence. -/
theorem test_decode_operands : decodeRequest { op := 0b000#3, operands := .bytes [] }
    = .error (.operandsOfAnotherType .derive) := by decide

theorem test_table_words : decodeTableWord 8 1 = some (.encode zeroFrame) ∧ decodeTableWord 8 6 = none := by decide +kernel

/-- The word of a row runs as the first instruction after reset. -/
theorem test_first_instruction : step (State.reset.withFetchWord 8 2)
    = .next { State.reset with responses := [.error (.decode .sizeMismatch)] } := by rfl

/-! ### Well-formedness: an ill-formed term for each check -/

theorem test_wf_rxMax : (Instr.decode (List.replicate 60 0)).illFormed bounded = some .overRxMax
    ∧ (Instr.decode (List.replicate 59 0)).illFormed bounded = none := by decide
theorem test_wf_ancMax : (Instr.extract (List.replicate 65 0)).illFormed bounded = some .overAncMax
    ∧ (Instr.extract (List.replicate 64 0)).illFormed bounded = none := by decide

/-! ### The operations on the spec's vectors -/

/-- V1 (T2). -/
theorem test_derive_T2 : exec (.derive #v[0x00, 0x11, 0x22, 0x33, 0x44, 0x55]) State.reset
    = .next { State.reset with responses := [.ok (.identity #v[0x00, 0x11, 0x22, 0xFF, 0xFE, 0x33, 0x44, 0x55])] } := by rfl
/-- V6: the local bit is not inverted. -/
theorem test_derive_V6 : insertFFFE #v[0x02, 0, 0, 0, 0, 0x01] = #v[0x02, 0, 0, 0xFF, 0xFE, 0, 0, 0x01] := by decide

theorem test_encode_V20 : encodeFrame (defaultSync macA 7) = v20 := by decide +kernel
theorem test_encode_V21 : encodeFrame f21 = v21 := by decide +kernel

theorem test_decode_V21 : decodeFrame v21 = .ok f21 := by decide +kernel
/-- V24: 58 bytes of FF; every value is accepted and the signed fields are -1. -/
theorem test_decode_V24 : (decodeFields (List.replicate 58 0xFF)).payload.header.correctionField = -1
    ∧ (decodeFields (List.replicate 58 0xFF)).payload.header.logMessagePeriod = -1
    ∧ (decodeFields (List.replicate 58 0xFF)).payload.originTimestamp.nanoseconds = 4294967295 := by decide +kernel

/-- V41 and V40: alignment padding is skipped, a trailing fragment is not looked at. -/
theorem test_extract_V41 : extractTimestamp Params.default (v41head ++ v30 ++ [1, 2, 3]) = some (.ok ⟨3, 300⟩) := by
  decide +kernel
/-- V35 and V39 (b): the length word decides, and may not exceed the buffer. -/
theorem test_extract_V35 : extractTimestamp Params.default (0x3F :: v30.tail) = some (.error .shortRecord)
    ∧ extractTimestamp Params.default (0x50 :: v30.tail) = none := by decide +kernel

/-- V50: the fields the source's T8 gives. -/
theorem test_buildSync_V50 : (defaultSync macA 7).payload.header.sourcePortIdentity.clockIdentity
      = #v[0xAA, 0xBB, 0xCC, 0xFF, 0xFE, 0xDD, 0xEE, 0xFF]
    ∧ (defaultSync macA 7).payload.header.logMessagePeriod.toInt = -3
    ∧ (defaultSync macA 7).payload.header.messageLength = 44 := by decide

/-- V19i and the number a little-endian host shows for DE AD BE EF (R17, D7). -/
theorem test_helpers : seconds48 f21.payload.originTimestamp = 4294967298
    ∧ messageTypeSpecificNumber Params.default f21.payload.header = 0xEFBEADDE := by decide +kernel

end Sys2Proof.Tests
end

