-- ==== Sys2Proof/Tests/Witnesses.lean ====
section
/-! SUPPORT. For each statement with hypotheses, a concrete state and operands that meet all of them together. -/

-- Many small closed facts: checked one after another, not each in a thread of its own.
set_option Elab.async false

namespace Sys2Proof.Tests

open Sys2Proof Sys2Proof.Machine

theorem witness_DeriveInjectiveOntoFillerIdentities :
    (insertFFFE macA)[3] = 0xFF ∧ (insertFFFE macA)[4] = 0xFE ∧ insertFFFE macA = insertFFFE macA := by decide

theorem witness_DecodeRejectsEveryOtherSize : (v20.take 57).length ≠ 58 ∧ (v20 ++ [0]).length ≠ 58 ∧ ([] : Bytes).length ≠ 58 := by
  decide

theorem witness_DecodeReadsEveryField : v21.length = 58 := by decide

theorem witness_FirstNibblePairPosition : decodeFrame v21 = .ok f21 := test_decode_V21
theorem witness_SecondNibblePairPosition : decodeFrame v21 = .ok f21 := test_decode_V21
theorem witness_CorrectionFieldIsSigned : decodeFrame v21 = .ok f21 ∧ decodeFrame (encodeFrame f21) = .ok f21 := by
  decide +kernel
theorem witness_LogMessagePeriodIsSigned : decodeFrame v21 = .ok f21 := test_decode_V21
theorem witness_SecondsAreContiguous : decodeFrame v21 = .ok f21 := test_decode_V21
theorem witness_DecodeAfterEncodeIsIdentity : validFrame f21 = true := by decide
theorem witness_EncodeAfterDecodeIsIdentity : v20.length = 58 ∧ memRead v20 12 2 = [0x88, 0xF7] := by decide
/-- The other side of the equivalence: 58 bytes without the constant (V23). -/
theorem witness_EncodeAfterDecodeIsIdentity_other :
    (List.replicate 58 (0 : Byte)).length = 58 ∧ memRead (List.replicate 58 0) 12 2 ≠ [0x88, 0xF7] := by decide
theorem witness_EncodeBijectiveOnValidFrames :
    validFrame f21 = true ∧ encodeFrame f21 = encodeFrame f21 ∧ v21.length = 58 ∧ memRead v21 12 2 = [0x88, 0xF7] := by
  decide +kernel
theorem witness_AdapterOverwriteChangesOnlyCorrection :
    validFrame f21 = true ∧ ([0, 0, 0, 0, 0x12, 0x34, 0, 0] : Bytes).length = 8 := by decide

/-- Records of other tags: one that needs no padding, and one of 21 bytes with three padding bytes that are not zero. -/
def paddedOthers : List (AncRecord × Bytes) :=
  [(otherRecord, []), ({ level := 1, type := 29, payload := List.replicate 5 5 }, [0xEE, 0xDD, 0xCC])]

/-- Exactly three entries: the boundary. -/
theorem witness_ExtractAnswersThirdEntry :
    OtherRecords State.reset.params paddedOthers
      ∧ recordFits State.reset.params (tsRecord (List.replicate 48 1)) = true
      ∧ (tsRecord (List.replicate 48 1)).level = State.reset.params.tsLevel
      ∧ (tsRecord (List.replicate 48 1)).type = State.reset.params.tsType
      ∧ 3 * (State.reset.params.tsSecBytes + State.reset.params.tsNsecBytes) ≤ (tsRecord (List.replicate 48 1)).payload.length := by
  decide +kernel
/-- One byte less than three entries: the boundary. -/
theorem witness_ExtractAnswersShortRecord :
    OtherRecords State.reset.params paddedOthers
      ∧ recordFits State.reset.params (tsRecord (List.replicate 47 1)) = true
      ∧ (tsRecord (List.replicate 47 1)).level = State.reset.params.tsLevel
      ∧ (tsRecord (List.replicate 47 1)).type = State.reset.params.tsType
      ∧ (tsRecord (List.replicate 47 1)).payload.length < 3 * (State.reset.params.tsSecBytes + State.reset.params.tsNsecBytes) := by
  decide +kernel
/-- One byte less than a header after the records; a last record whose padding is one byte short, and one with none. -/
theorem witness_ExtractAnswersMissing :
    OtherRecords State.reset.params paddedOthers
      ∧ (List.replicate 15 (0 : Byte)).length
        < State.reset.params.ancLenBytes + State.reset.params.ancLevelBytes + State.reset.params.ancTypeBytes
      ∧ recordFits State.reset.params { level := 1, type := 29, payload := List.replicate 5 5 } = true
      ∧ ¬ ((1 : Int) = State.reset.params.tsLevel ∧ (29 : Int) = State.reset.params.tsType)
      ∧ (∀ k ≤ ([0xEE, 0xDD] : Bytes).length,
        ¬ State.reset.params.ancAlign ∣ State.reset.params.ancHdrBytes + (List.replicate 5 (5 : Byte)).length + k)
      ∧ (∀ k ≤ ([] : Bytes).length,
        ¬ State.reset.params.ancAlign ∣ State.reset.params.ancHdrBytes + (List.replicate 5 (5 : Byte)).length + k) := by
  decide +kernel
/-- Both sides: V30 is well framed, V39 (a) is not. -/
theorem witness_ExtractRefusesExactlyIllFramed : wellFramed State.reset.params v30 = true
    ∧ wellFramed State.reset.params [8, 0, 0, 0, 0, 0, 0, 0, 1, 0, 0, 0, 0x1D, 0, 0, 0] = false := by decide +kernel
/-- The header words `level` and `type` of a tagged header, and of another. -/
def taggedWords : Bytes := [1, 0, 0, 0, 37, 0, 0, 0]
def otherWords : Bytes := [1, 0, 0, 0, 29, 0, 0, 0]

/-- The hypotheses that the four clauses of ExtractLengthWordBounds share, for the default parameters and the records of
`paddedOthers`. -/
def lengthWordCase (lenBytes rest : Bytes) (len remaining : Nat) (level type : Int) : Prop :=
  OtherRecords State.reset.params paddedOthers
    ∧ 16 = State.reset.params.ancLenBytes + State.reset.params.ancLevelBytes + State.reset.params.ancTypeBytes
    ∧ lenBytes.length = State.reset.params.ancLenBytes
    ∧ State.reset.params.ancLevelBytes + State.reset.params.ancTypeBytes ≤ rest.length
    ∧ len = fromOrd State.reset.params.ancOrder lenBytes ∧ remaining = lenBytes.length + rest.length
    ∧ level = asSigned (8 * State.reset.params.ancLevelBytes)
      (fromOrd State.reset.params.ancOrder (memRead rest 0 State.reset.params.ancLevelBytes))
    ∧ type = asSigned (8 * State.reset.params.ancTypeBytes)
      (fromOrd State.reset.params.ancOrder
        (memRead rest State.reset.params.ancLevelBytes State.reset.params.ancTypeBytes))

/-- Refused: one below the header, and one above the 16 bytes that remain. -/
theorem witness_ExtractLengthWordBounds :
    (lengthWordCase (toLE 8 15) taggedWords 15 16 1 37 ∧ 15 < 16)
      ∧ (lengthWordCase (toLE 8 17) taggedWords 17 16 1 37 ∧ 16 < 17) := by
  unfold lengthWordCase; decide +kernel
/-- Tagged and within bounds: the header alone (both bounds at once), and 63 bytes, one short of three entries, with one
byte to spare; then exactly three entries that reach the end. -/
theorem witness_ExtractLengthWordBounds_tagged :
    lengthWordCase (toLE 8 16) taggedWords 16 16 1 37
      ∧ (lengthWordCase (toLE 8 63) (taggedWords ++ List.replicate 48 1) 63 64 1 37 ∧ 63 - 16 < 48)
      ∧ (lengthWordCase (toLE 8 64) (taggedWords ++ List.replicate 48 1) 64 64 1 37 ∧ 48 ≤ 64 - 16) := by
  unfold lengthWordCase; decide +kernel
/-- Another tag and within bounds: the header alone, and a record followed by one byte less than a header. -/
theorem witness_ExtractLengthWordBounds_other :
    (lengthWordCase (toLE 8 16) otherWords 16 16 1 29 ∧ 16 < 16 + 16)
      ∧ (lengthWordCase (toLE 8 16) (otherWords ++ List.replicate 15 0) 16 31 1 29 ∧ 31 < 16 + 16)
      ∧ ¬ ((1 : Int) = State.reset.params.tsLevel ∧ (29 : Int) = State.reset.params.tsType) := by
  unfold lengthWordCase; decide +kernel
theorem witness_ExtractRefinesRecordLayer :
    cutRecords Params.default (frameRecords Params.default [otherRecord, tsRecord (List.replicate 48 1)])
      = some [otherRecord, tsRecord (List.replicate 48 1)] := by decide +kernel
/-- Padding bytes that are not zero, a tagged record among them, a fragment of 15 bytes; a last record with cut padding. -/
theorem witness_FramedRecordsCutBack :
    (∀ x ∈ paddedOthers ++ [(tsRecord [], [])], recordFits Params.default x.1 = true
        ∧ PadsToAlign Params.default (Params.default.ancHdrBytes + x.1.payload.length) x.2)
      ∧ (List.replicate 15 (0 : Byte)).length
        < Params.default.ancLenBytes + Params.default.ancLevelBytes + Params.default.ancTypeBytes
      ∧ recordFits Params.default (tsRecord [1, 2, 3]) = true
      ∧ (∀ k ≤ ([0xEE, 0xDD, 0xCC, 0xBB] : Bytes).length,
        ¬ Params.default.ancAlign ∣ Params.default.ancHdrBytes + (tsRecord [1, 2, 3]).payload.length + k)
      ∧ (∀ r ∈ [otherRecord, tsRecord []], recordFits Params.default r = true) := by decide +kernel
theorem witness_OtherTagsContributeNothing :
    ¬ (otherRecord.level = Params.default.tsLevel ∧ otherRecord.type = Params.default.tsType) := by decide
/-- Both sides of the equivalence share these hypotheses; payloads of 47 and 48 bytes are its boundary. -/
theorem witness_ShortRecordExactlyWhenShort :
    (∀ x ∈ [otherRecord] ++ [otherRecord], ¬ (x.level = Params.default.tsLevel ∧ x.type = Params.default.tsType))
      ∧ (tsRecord (List.replicate 47 1)).level = Params.default.tsLevel
      ∧ (tsRecord (List.replicate 47 1)).type = Params.default.tsType := by decide
theorem witness_MissingExactlyWhenAbsent :
    (∀ r ∈ [otherRecord], ¬ (r.level = Params.default.tsLevel ∧ r.type = Params.default.tsType))
      ∧ (List.replicate 15 (0 : Byte)).length < Params.default.ancHdrBytes := by decide
theorem witness_DecidedExtractIgnoresTail :
    extractTimestamp Params.default v30 = some (.ok ⟨3, 300⟩)
      ∧ (.ok ⟨3, 300⟩ : Except TimestampError HardwareTimestamp) ≠ .error .missing := by decide +kernel

theorem witness_RequestCodecAgrees :
    decodeRequest { op := 0b011#3, operands := .bytes v30 } = .ok (.extract v30) := test_decode_extract
/-- The lowest and the highest reserved code. -/
theorem witness_ReservedCodesRefused :
    ((busy { op := 5, operands := .bytes [] } []).inProgress = some { op := 5, operands := .bytes [] }
        ∧ (busy { op := 5, operands := .bytes [] } []).host.head? ≠ some .reset ∧ 5 ≤ (5 : BitVec 3).toNat)
      ∧ 5 ≤ (7 : BitVec 3).toNat := by decide
/-- One byte over each bound. -/
theorem witness_OverlongOperandsRefused :
    (∃ s : State, s.inProgress = some (encodeRequest (.decode (List.replicate 60 0))) ∧ s.host.head? ≠ some .reset
        ∧ s.params.rxMax = some 59 ∧ 59 < (List.replicate 60 (0 : Byte)).length)
      ∧ (∃ s : State, s.inProgress = some (encodeRequest (.extract (List.replicate 65 0))) ∧ s.host.head? ≠ some .reset
        ∧ s.params.ancMax = some 64 ∧ 64 < (List.replicate 65 (0 : Byte)).length) :=
  ⟨⟨{ State.reset with params := bounded, inProgress := some (encodeRequest (.decode (List.replicate 60 0))) },
      by decide⟩,
    ⟨{ State.reset with params := bounded, inProgress := some (encodeRequest (.extract (List.replicate 65 0))) },
      by decide⟩⟩
/-- Both clauses: a wait next, and no action at all. -/
theorem witness_StepRunsTheDecodedInstruction :
    (busy (encodeRequest (.derive macA)) [.wait]).inProgress = some (encodeRequest (.derive macA))
      ∧ decodeRequest (encodeRequest (.derive macA)) = .ok (.derive macA)
      ∧ (Instr.derive macA).WellFormed (busy (encodeRequest (.derive macA)) [.wait]).params
      ∧ (busy (encodeRequest (.derive macA)) [.wait]).host = .wait :: []
      ∧ (busy (encodeRequest (.derive macA)) []).host.head? ≠ some .wait
      ∧ (busy (encodeRequest (.derive macA)) []).host.head? ≠ some .reset := by decide
/-- The three clauses. -/
theorem witness_IdleBlockTakesRequests :
    State.reset.inProgress = none ∧ State.reset.host = []
      ∧ ({ State.reset with host := [.request (encodeRequest (.derive macA))] } : State).host
        = .request (encodeRequest (.derive macA)) :: []
      ∧ ({ State.reset with host := [.wait] } : State).host = .wait :: [] := by decide
theorem witness_ResetAbandonsTransaction :
    (busy (encodeRequest (.derive macA)) [.reset, .wait]).host = .reset :: [.wait] := by decide
theorem witness_RequestRepeatedAfterReset :
    ∃ t : State, (busy (encodeRequest (.derive macA)) []).inProgress = some (encodeRequest (.derive macA))
      ∧ ([] : List HostAction).head? ≠ some .reset
      ∧ serve (encodeRequest (.derive macA)) (busy (encodeRequest (.derive macA)) []) = .next t :=
  ⟨_, by decide, by decide, rfl⟩
theorem witness_InstructionFrame : ∃ t : State, exec (.derive macA) State.reset = .next t := ⟨_, rfl⟩
/-- Both outcomes: a step with a response and one without. -/
theorem witness_StepGivesAtMostOneResponse :
    (∃ t : State, step (busy (encodeRequest (.derive macA)) []) = .next t) ∧ (∃ t : State, step State.reset = .next t) :=
  ⟨⟨_, rfl⟩, ⟨_, rfl⟩⟩
/-- Two states with different histories, the second after an error. -/
theorem witness_ResponseIndependentOfHistory :
    ∃ s s' t : State, s.params = s'.params ∧ s.inProgress = s'.inProgress ∧ s.inProgress ≠ none
      ∧ s.host.head? ≠ some .reset ∧ s'.host.head? ≠ some .reset ∧ s.responses ≠ s'.responses ∧ step s = .next t :=
  ⟨busy (encodeRequest (.derive macA)) [],
    { busy (encodeRequest (.derive macA)) [.wait] with responses := [.error (.decode .sizeMismatch)] }, _,
    by decide, by decide, by decide, by decide, by decide, by decide, rfl⟩
theorem witness_ErrorsBelongToTheirOperation :
    exec (.decode []) State.reset
        = .next { State.reset with responses := State.reset.responses ++ [.error (.decode .sizeMismatch)], inProgress := none }
      ∧ exec (.extract []) State.reset
        = .next { State.reset with responses := State.reset.responses ++ [.error (.timestamp .missing)], inProgress := none } :=
  ⟨rfl, rfl⟩
theorem witness_StatusCodes :
    (Response.error (.timestamp .missing)).status = (Response.error (.timestamp .missing)).status := rfl
/-- A state that has already answered, and answers again. -/
theorem witness_StepKeepsResponsesShaped :
    ∃ s t : State, ResponsesShaped s ∧ s.responses ≠ [] ∧ step s = .next t :=
  ⟨{ busy (encodeRequest (.derive macA)) [] with responses := [.ok (.identity (insertFFFE macA))] }, _,
    by intro r hr; simp at hr; subst hr; exact ⟨rfl, rfl⟩, by decide, rfl⟩
theorem served_v30 : requestServed Params.default (encodeRequest (.extract v30)) = true := by decide +kernel
/-- A dutiful host with a transaction in progress and one to come. -/
theorem witness_DutifulHostIsAlwaysServed :
    HostKeepsDuties (busy (encodeRequest (.derive macA)) [.request (encodeRequest (.extract v30)), .reset, .wait]) :=
  ⟨by intro q hq; cases hq; decide, by decide +kernel⟩
theorem witness_EveryTransactionEnds :
    HostKeepsDuties (busy (encodeRequest (.derive macA)) [.request (encodeRequest (.extract v30)), .reset, .wait]) :=
  witness_DutifulHostIsAlwaysServed
/-- Both sides of the equivalence. -/
theorem witness_RefusedExactlyOutsideDuties :
    requestServed Params.default { op := 5, operands := .bytes [] } = false
      ∧ (busy { op := 5, operands := .bytes [] } []).host.head? ≠ some .reset
      ∧ (busy { op := 5, operands := .bytes [] } [.reset]).host.head? = some .reset := by decide
theorem witness_RunAnswersEachRequestInOrder :
    ∃ (s : State) (is : List Instr) (rs : List Response), s.inProgress = none ∧ s.host = presentAll is
      ∧ (∀ i ∈ is, i.WellFormed s.params) ∧ is.map (responseTo s.params) = rs.map some ∧ is.length = 2 :=
  ⟨{ State.reset with host := presentAll [.derive macA, .decode []] }, [.derive macA, .decode []],
    [.ok (.identity (insertFFFE macA)), .error (.decode .sizeMismatch)], rfl, rfl, by decide, rfl, rfl⟩

end Sys2Proof.Tests
end

/-! Where ENCODE puts, and DECODE finds, the first nibble pair, the correction field and the log message period
(spec/30_encoding.md R55, R60, R63). -/

namespace Sys2Proof.Machine

/-! ### Nibble pairs as numbers (R55, R56) -/

theorem packNibbles_toNat (hi lo : U4) : (packNibbles hi lo).toNat = 16 * hi.toNat + lo.toNat := by
  rw [packNibbles_eq_append, BitVec.toNat_append, ← Nat.shiftLeft_add_eq_or_of_lt lo.isLt, Nat.shiftLeft_eq,
    Nat.mul_comm]

/-- A byte is sixteen times its high nibble plus its low one. -/
theorem highNibble_lowNibble_toNat (b : Byte) : 16 * (highNibble b).toNat + (lowNibble b).toNat = b.toNat := by
  rw [← packNibbles_toNat, packNibbles_eq_append, highNibble_append_lowNibble]

theorem lowNibble_toNat (b : Byte) : (lowNibble b).toNat = b.toNat % 16 := by
  have hsum := highNibble_lowNibble_toNat b
  have hlt := (lowNibble b).isLt
  omega

theorem highNibble_toNat (b : Byte) : (highNibble b).toNat = b.toNat / 16 := by
  have hsum := highNibble_lowNibble_toNat b
  have hlt := (lowNibble b).isLt
  omega

/-! ### Fields of an encoded frame at their offsets (R51) -/

/-- A byte inside the PTP header, at an offset counted from the start of the PTP message. -/
theorem byteAt_encodeFrame_header (f : EthernetFrame) (off : Nat) (h : off < 34) :
    byteAt (encodeFrame f) (14 + off) = byteAt (encodePtpHeader f.payload.header) off := by
  have hread := memRead_encodeFrame_header f off 1 (by omega)
  rwa [memRead_one _ _ (by simp; omega), memRead_one _ _ (by simp; omega), List.singleton_inj] at hread

theorem byteAt_encodeFrame_firstNibblePair (f : EthernetFrame) :
    byteAt (encodeFrame f) 14 = packNibbles f.payload.header.majorSdoId f.payload.header.messageType :=
  byteAt_encodeFrame_header f 0 (by decide)

theorem memRead_encodeFrame_correctionField (f : EthernetFrame) :
    memRead (encodeFrame f) 22 8 = encI64 f.payload.header.correctionField := by
  rw [memRead_encodeFrame_header f 8 8 (by decide), encodePtpHeader]
  simp (disch := simp) only [memRead_append_left, memRead_append_right]
  simpa using memRead_self (encI64 f.payload.header.correctionField)

theorem byteAt_encodeFrame_logMessagePeriod (f : EthernetFrame) :
    byteAt (encodeFrame f) 47 = encI8 f.payload.header.logMessagePeriod := by
  rw [byteAt_encodeFrame_header f 33 (by decide), encodePtpHeader, byteAt, List.getD_append_right _ _ _ _ (by simp)]
  simp

/-! ### Signed fields as numbers (R60, R63) -/

theorem encI8_toNat (v : I8) : (encI8 v).toNat = asUnsigned 8 v.toInt := by
  rw [encI8, BitVec.toNat_ofNat, Nat.mod_eq_of_lt (asUnsigned_lt 8 _)]

/-- Two's complement on eight big-endian bytes keeps the value, sign and all. -/
theorem asSigned_fromBE_encI64 (v : I64) : asSigned 64 (fromBE (encI64 v)) = v.toInt := by
  have hfit : asUnsigned 64 v.toInt < 256 ^ 8 := asUnsigned_lt 64 _
  rw [encI64, fromBE_toBE, Nat.mod_eq_of_lt hfit,
    asSigned_asUnsigned 64 _ (by decide) v.le_toInt v.toInt_lt]

/-! ### The statements -/

/-- Settles O7 (R55): packing two nibbles, and taking a byte apart into two, said as numbers, at byte 14. -/
theorem firstNibblePairPosition : Obligations.FirstNibblePairPosition := by
  unfold Obligations.FirstNibblePairPosition
  refine ⟨fun f => ?_, fun w f hdec => ?_⟩
  · rw [byteAt_encodeFrame_firstNibblePair, packNibbles_toNat]
  · obtain ⟨-, rfl⟩ := (decodeFrame_ok_iff w f).mp hdec
    exact ⟨lowNibble_toNat _, highNibble_toNat _⟩

/-- Settles O9 (R60): the sign survives because the signed reading undoes the reduction modulo `2^64`. -/
theorem correctionFieldIsSigned : Obligations.CorrectionFieldIsSigned := by
  unfold Obligations.CorrectionFieldIsSigned
  have hread (w : Bytes) (f : EthernetFrame) (hdec : decodeFrame w = .ok f) :
      f.payload.header.correctionField.toInt = asSigned 64 (fromBE (memRead w 22 8)) := by
    obtain ⟨-, rfl⟩ := (decodeFrame_ok_iff w f).mp hdec
    exact decI64_toInt w 22
  refine ⟨memRead_encodeFrame_correctionField, hread, fun f g hdec => ?_⟩
  rw [hread _ g hdec, memRead_encodeFrame_correctionField, asSigned_fromBE_encI64]

/-- Settles O10 (R63): the byte at offset 47 is the encoded period, and DECODE reads it back as a signed number. -/
theorem logMessagePeriodIsSigned : Obligations.LogMessagePeriodIsSigned := by
  unfold Obligations.LogMessagePeriodIsSigned
  refine ⟨fun f => ?_, fun w f hdec => ?_⟩
  · rw [byteAt_encodeFrame_logMessagePeriod, encI8_toNat]
  · obtain ⟨-, rfl⟩ := (decodeFrame_ok_iff w f).mp hdec
    exact decI8_toInt w 47

end Sys2Proof.Machine

/-! DERIVE as a sequence of bytes, and its inverse on the identities that carry the filler (spec/40_identity.md R80 to
R82). -/

namespace Sys2Proof.Machine

/-! ### The address's halves around the filler (R80, R81) -/

theorem exec_derive (mac : MacAddress) (s : State) :
    exec (.derive mac) s = .next (s.respond (.ok (.identity (insertFFFE mac)))) :=
  (exec_eq_next _ s _).mpr ⟨_, rfl, rfl⟩

/-- The closed form of R80. -/
theorem insertFFFE_toList (mac : MacAddress) :
    (insertFFFE mac).toList = memRead mac.toList 0 3 ++ [0xFF, 0xFE] ++ memRead mac.toList 3 3 := by
  apply List.ext_getElem (by simp)
  intro i hi _
  have hlt : i < 8 := by simpa using hi
  interval_cases i <;> simp [insertFFFE, memRead]

theorem memRead_insertFFFE_firstHalf (mac : MacAddress) :
    memRead (insertFFFE mac).toList 0 3 = memRead mac.toList 0 3 := by
  rw [insertFFFE_toList, List.append_assoc]
  exact memRead_middle [] _ _ 0 3 (by simp) (by simp)

theorem memRead_insertFFFE_filler (mac : MacAddress) : memRead (insertFFFE mac).toList 3 2 = [0xFF, 0xFE] := by
  rw [insertFFFE_toList]
  exact memRead_middle _ _ _ 3 2 (by simp) (by simp)

theorem memRead_insertFFFE_lastHalf (mac : MacAddress) :
    memRead (insertFFFE mac).toList 5 3 = memRead mac.toList 3 3 := by
  rw [insertFFFE_toList, ← List.append_nil (_ ++ _)]
  exact memRead_middle _ _ [] 5 3 (by simp) (by simp)

/-! ### The inverse map: drop the filler (R82) -/

/-- The address an identity was derived from, if it was derived: its bytes without bytes 3 and 4. -/
def dropFiller (cid : ClockIdentity) : MacAddress := #v[cid[0], cid[1], cid[2], cid[5], cid[6], cid[7]]

@[simp] theorem insertFFFE_getElem_three (mac : MacAddress) : (insertFFFE mac)[3] = 0xFF := rfl
@[simp] theorem insertFFFE_getElem_four (mac : MacAddress) : (insertFFFE mac)[4] = 0xFE := rfl

/-- All six bytes of the address stand in the identity. -/
theorem dropFiller_insertFFFE (mac : MacAddress) : dropFiller (insertFFFE mac) = mac := by
  apply Vector.ext
  intro i hi
  interval_cases i <;> rfl

/-- Dropping bytes 3 and 4 loses nothing where they are the filler. -/
theorem insertFFFE_dropFiller (cid : ClockIdentity) (h3 : cid[3] = 0xFF) (h4 : cid[4] = 0xFE) :
    insertFFFE (dropFiller cid) = cid := by
  apply Vector.ext
  intro i hi
  match i with
  | 3 => exact h3.symm
  | 4 => exact h4.symm
  | 0 | 1 | 2 | 5 | 6 | 7 => rfl

theorem insertFFFE_injective : Function.Injective insertFFFE :=
  Function.LeftInverse.injective dropFiller_insertFFFE

/-! ### The statements -/

/-- Settles O2 (R82): dropping the filler is a left inverse of DERIVE, and a right inverse on identities that have it. -/
theorem deriveInjectiveOntoFillerIdentities : Obligations.DeriveInjectiveOntoFillerIdentities := by
  unfold Obligations.DeriveInjectiveOntoFillerIdentities
  refine ⟨fun _ _ heq => insertFFFE_injective heq, fun cid => ⟨?_, ?_⟩⟩
  · rintro ⟨mac, rfl⟩
    exact ⟨insertFFFE_getElem_three mac, insertFFFE_getElem_four mac⟩
  · rintro ⟨h3, h4⟩
    exact ⟨dropFiller cid, insertFFFE_dropFiller cid h3 h4⟩

/-- Settles O1 (R81): the response is the identity of R80, read at its three parts. -/
theorem deriveKeepsHalvesAroundFiller : Obligations.DeriveKeepsHalvesAroundFiller := by
  unfold Obligations.DeriveKeepsHalvesAroundFiller
  exact fun mac s => ⟨insertFFFE mac, exec_derive mac s, memRead_insertFFFE_filler mac,
    memRead_insertFFFE_firstHalf mac, memRead_insertFFFE_lastHalf mac⟩

end Sys2Proof.Machine

/-! What ENCODE gives on the fields DECODE reads, and that ENCODE loses nothing but the EtherType member: the converse law
and the bijection of spec/41_codec.md R93. -/

namespace Sys2Proof.Machine

/-! ### Adjacent reads -/

/-- `memRead_add` with the middle offset as it stands in the frame table. -/
theorem memRead_append_memRead (w : Bytes) (off m mid n : Nat) (h : mid = off + m) :
    memRead w off m ++ memRead w mid n = memRead w off (m + n) := by
  subst h
  exact memRead_add w off m n

theorem memRead_two (w : Bytes) (i : Nat) (h : i + 1 < w.length) : memRead w i 2 = [byteAt w i, byteAt w (i + 1)] := by
  rw [← memRead_add w i 1 1, memRead_one w i (by omega), memRead_one w (i + 1) h]
  rfl

/-- A sequence is what comes before a read, the read, and what comes after it. -/
theorem take_append_memRead_append_drop (w : Bytes) (off n : Nat) :
    w.take off ++ memRead w off n ++ w.drop (off + n) = w := by
  rw [memRead, List.append_assoc, ← List.drop_drop, List.take_append_drop, List.take_append_drop]

/-! ### Encoding a field that was decoded (R31, R55, R56, R60, R63) -/

theorem packNibbles_highNibble_lowNibble (b : Byte) : packNibbles (highNibble b) (lowNibble b) = b := by
  rw [packNibbles_eq_append, highNibble_append_lowNibble]

theorem encI64_decI64 (w : Bytes) (off : Nat) (h : off + 8 ≤ w.length) : encI64 (decI64 w off) = memRead w off 8 := by
  have hlen : (memRead w off 8).length = 8 := by rw [memRead_length]; omega
  have hlt : fromBE (memRead w off 8) < 2 ^ 64 := by simpa [hlen] using fromBE_lt (memRead w off 8)
  rw [encI64, decI64_toInt, asUnsigned_asSigned 64 _ hlt]
  simpa only [hlen] using toBE_fromBE (memRead w off 8)

theorem encI8_decI8 (w : Bytes) (i : Nat) : encI8 (decI8 w i) = byteAt w i := by
  rw [encI8, decI8_toInt, asUnsigned_asSigned 8 _ (byteAt w i).isLt, BitVec.ofNat_toNat, BitVec.setWidth_eq]

/-! ### Encoding a part of the frame that was decoded (R86, R90) -/

/-- DECODE keeps the EtherType it read and ENCODE does not look at it (R87). -/
theorem encodeEthernetHeader_decodeFields (w : Bytes) (h : 14 ≤ w.length) :
    encodeEthernetHeader (decodeFields w) = memRead w 0 12 ++ [0x88, 0xF7] := by
  have hdst : (decodeFields w).destination.toList = memRead w 0 6 := readArr_toList w 0 6 (by omega)
  have hsrc : (decodeFields w).source.toList = memRead w 6 6 := readArr_toList w 6 6 (by omega)
  rw [encodeEthernetHeader, hdst, hsrc, memRead_append_memRead w 0 6 6 6 rfl]
  rfl

theorem encodePtpHeader_decodePtpHeader (w : Bytes) (h : 48 ≤ w.length) :
    encodePtpHeader (decodePtpHeader w) = memRead w 14 34 := by
  simp (disch := omega) only [encodePtpHeader, decodePtpHeader, packNibbles_highNibble_lowNibble, encU16_decU16,
    encI64_decI64, encI8_decI8, readArr_toList, ← memRead_two, memRead_append_memRead, Nat.reduceAdd]

theorem encodeOriginTimestamp_decodeOriginTimestamp (w : Bytes) (h : 58 ≤ w.length) :
    encodeOriginTimestamp (decodeOriginTimestamp w) = memRead w 48 10 := by
  simp (disch := omega) only [encodeOriginTimestamp, decodeOriginTimestamp, encU16_decU16, encU32_decU32,
    memRead_append_memRead, Nat.reduceAdd]

/-- The closed form of R93: the 58 bytes with the constant at offsets 12 and 13. -/
theorem encodeFrame_decodeFields (w : Bytes) (h : w.length = 58) :
    encodeFrame (decodeFields w) = w.take 12 ++ [0x88, 0xF7] ++ w.drop 14 := by
  have hrest : memRead w 14 44 = w.drop 14 := List.take_of_length_le (by simp [h])
  calc encodeFrame (decodeFields w)
      = memRead w 0 12 ++ [0x88, 0xF7] ++ memRead w 14 34 ++ memRead w 48 10 := by
        rw [encodeFrame, encodeEthernetHeader_decodeFields w (by omega)]
        congr 1
        · exact congrArg _ (encodePtpHeader_decodePtpHeader w (by omega))
        · exact encodeOriginTimestamp_decodeOriginTimestamp w (by omega)
    _ = w.take 12 ++ [0x88, 0xF7] ++ w.drop 14 := by
        rw [List.append_assoc, memRead_append_memRead w 14 34 48 10 rfl, hrest]
        rfl

/-- No other bytes are lost, so the constant in place is all it takes (R93). -/
theorem encodeFrame_decodeFields_eq_iff (w : Bytes) (h : w.length = 58) :
    encodeFrame (decodeFields w) = w ↔ memRead w 12 2 = [0x88, 0xF7] := by
  have hsplit : w.take 12 ++ memRead w 12 2 ++ w.drop 14 = w := take_append_memRead_append_drop w 12 2
  calc encodeFrame (decodeFields w) = w
      ↔ w.take 12 ++ [0x88, 0xF7] ++ w.drop 14 = w.take 12 ++ memRead w 12 2 ++ w.drop 14 := by
        rw [hsplit, encodeFrame_decodeFields w h]
    _ ↔ memRead w 12 2 = [0x88, 0xF7] := by rw [List.append_left_inj, List.append_right_inj, eq_comm]

/-! ### Encodings are injective -/

/-- Concatenations whose last parts are equally long are equal part by part. -/
theorem append_eq_append_iff_of_length_eq {a b c d : Bytes} (h : b.length = d.length) :
    a ++ b = c ++ d ↔ a = c ∧ b = d :=
  ⟨fun heq => List.append_inj' heq h, fun ⟨hac, hbd⟩ => hac ▸ hbd ▸ rfl⟩

theorem encU16_inj {v u : U16} : encU16 v = encU16 u ↔ v = u := by
  refine ⟨fun h => BitVec.eq_of_toNat_eq ?_, congrArg _⟩
  rw [← fromBE_encU16, h, fromBE_encU16]

theorem encU32_inj {v u : U32} : encU32 v = encU32 u ↔ v = u := by
  refine ⟨fun h => BitVec.eq_of_toNat_eq ?_, congrArg _⟩
  rw [← fromBE_encU32, h, fromBE_encU32]

theorem encI64_inj {v u : I64} : encI64 v = encI64 u ↔ v = u := by
  refine ⟨fun h => Int64.toInt_inj.mp ?_, congrArg _⟩
  rw [← asSigned_fromBE_encI64, h, asSigned_fromBE_encI64]

theorem encI8_inj {v u : I8} : encI8 v = encI8 u ↔ v = u := by
  rw [encI8_eq, encI8_eq, Int8.toBitVec_inj]

theorem packNibbles_inj {hi lo hi' lo' : U4} : packNibbles hi lo = packNibbles hi' lo' ↔ hi = hi' ∧ lo = lo' := by
  refine ⟨fun h => ?_, fun ⟨hhi, hlo⟩ => hhi ▸ hlo ▸ rfl⟩
  rw [packNibbles_eq_append, packNibbles_eq_append] at h
  constructor
  · rw [← highNibble_append hi lo, h, highNibble_append]
  · rw [← lowNibble_append hi lo, h, lowNibble_append]

theorem encodePtpHeader_injective : Function.Injective encodePtpHeader := by
  rintro ⟨_, _, _, _, _, _, _, _, _, _, ⟨_, _⟩, _, _, _⟩ ⟨_, _, _, _, _, _, _, _, _, _, ⟨_, _⟩, _, _, _⟩ h
  simp (disch := simp) only [encodePtpHeader, append_eq_append_iff_of_length_eq, List.cons.injEq, packNibbles_inj,
    encU16_inj, encI64_inj, encI8_inj, Vector.toList_inj] at h
  simp [h]

theorem encodeOriginTimestamp_injective : Function.Injective encodeOriginTimestamp := by
  rintro ⟨_, _, _⟩ ⟨_, _, _⟩ h
  simpa (disch := simp) only [encodeOriginTimestamp, append_eq_append_iff_of_length_eq, encU16_inj, encU32_inj,
    OriginTimestamp.mk.injEq, and_assoc] using h

theorem encodeEthernetHeader_eq_iff (f g : EthernetFrame) :
    encodeEthernetHeader f = encodeEthernetHeader g ↔ f.destination = g.destination ∧ f.source = g.source := by
  simp (disch := simp) only [encodeEthernetHeader, append_eq_append_iff_of_length_eq, Vector.toList_inj, and_true]

/-- ENCODE loses the EtherType member (R87) and no other field. -/
theorem encodeFrame_inj_of_etherType_eq {f g : EthernetFrame} (hetype : f.etherType = g.etherType)
    (h : encodeFrame f = encodeFrame g) : f = g := by
  simp (disch := simp) only [encodeFrame, append_eq_append_iff_of_length_eq, encodeEthernetHeader_eq_iff,
    encodePtpHeader_injective.eq_iff, encodeOriginTimestamp_injective.eq_iff] at h
  obtain ⟨⟨⟨hdst, hsrc⟩, hheader⟩, horigin⟩ := h
  obtain ⟨_, _, _, ⟨_, _⟩⟩ := f
  obtain ⟨_, _, _, ⟨_, _⟩⟩ := g
  simp only [EthernetFrame.mk.injEq, SyncMessage.mk.injEq]
  exact ⟨hdst, hsrc, hetype, hheader, horigin⟩

/-! ### Valid frames (R25, D8) -/

theorem validFrame_iff (f : EthernetFrame) : validFrame f = true ↔ f.etherType = etherTypePtp := decide_eq_true_iff

theorem memRead_encodeFrame_etherType (f : EthernetFrame) : memRead (encodeFrame f) 12 2 = [0x88, 0xF7] := by
  have hlen : (f.destination.toList ++ f.source.toList).length = 12 := by simp
  rw [memRead_encodeFrame_ethernet f 12 2 (by decide), encodeEthernetHeader, memRead_append_right _ _ _ _ hlen.le, hlen]
  rfl

theorem validFrame_decodeFields (w : Bytes) (h : memRead w 12 2 = [0x88, 0xF7]) : validFrame (decodeFields w) = true := by
  rw [validFrame_iff]
  change BitVec.ofNat 16 (fromBE (memRead w 12 2)) = etherTypePtp
  rw [h]
  rfl

/-! ### The statements -/

/-- Settles O12 (R93): DECODE of 58 bytes is `decodeFields`, and each field's encoding is the inverse of its decoding. -/
theorem encodeAfterDecodeIsIdentity : Obligations.EncodeAfterDecodeIsIdentity := by
  unfold Obligations.EncodeAfterDecodeIsIdentity
  exact fun w hlen => ⟨decodeFields w, (decodeFrame_ok_iff w _).mpr ⟨hlen, rfl⟩, encodeFrame_decodeFields w hlen,
    encodeFrame_decodeFields_eq_iff w hlen⟩

/-- Settles O13 (R93): valid frames share the one member ENCODE loses, and the frame DECODE reads is the preimage. -/
theorem encodeBijectiveOnValidFrames : Obligations.EncodeBijectiveOnValidFrames := by
  unfold Obligations.EncodeBijectiveOnValidFrames
  refine ⟨fun f g hf hg heq => ?_, fun w => ⟨?_, ?_⟩⟩
  · rw [validFrame_iff] at hf hg
    exact encodeFrame_inj_of_etherType_eq (hf.trans hg.symm) heq
  · rintro ⟨f, -, rfl⟩
    exact ⟨encodeFrame_length f, memRead_encodeFrame_etherType f⟩
  · rintro ⟨hlen, hconst⟩
    exact ⟨decodeFields w, validFrame_decodeFields w hconst, (encodeFrame_decodeFields_eq_iff w hlen).mpr hconst⟩

end Sys2Proof.Machine

/-! The record layer of EXTRACT: which record decides, and when none does (spec/42_timestamp.md R102, R105, R106). -/

namespace Sys2Proof.Machine

/-! ### One record at a time -/

@[simp] theorem selectTimestamp_nil (P : Params) : selectTimestamp P [] = .error .missing := rfl

/-- R106: the first timestamping record decides. -/
theorem selectTimestamp_cons_of_tag (P : Params) (r : AncRecord) (rs : List AncRecord)
    (h : r.level = P.tsLevel ∧ r.type = P.tsType) : selectTimestamp P (r :: rs) = rawHardwareEntry P r.payload :=
  if_pos ((isTimestampTag_eq_true P r.level r.type).mpr h)

/-- R102: a record of another tag is passed over. -/
theorem selectTimestamp_cons_of_not_tag (P : Params) (r : AncRecord) (rs : List AncRecord)
    (h : ¬ (r.level = P.tsLevel ∧ r.type = P.tsType)) : selectTimestamp P (r :: rs) = selectTimestamp P rs :=
  if_neg (mt (isTimestampTag_eq_true P r.level r.type).mp h)

/-- What a record list gives depends on its tail only through what the tail gives. -/
theorem selectTimestamp_append_congr (P : Params) (recs : List AncRecord) {rs rs' : List AncRecord}
    (h : selectTimestamp P rs = selectTimestamp P rs') :
    selectTimestamp P (recs ++ rs) = selectTimestamp P (recs ++ rs') := by
  induction recs with
  | nil => exact h
  | cons x xs ih =>
    by_cases hx : x.level = P.tsLevel ∧ x.type = P.tsType
    · exact (selectTimestamp_cons_of_tag P x _ hx).trans (selectTimestamp_cons_of_tag P x _ hx).symm
    · simpa only [List.cons_append, selectTimestamp_cons_of_not_tag P x _ hx] using ih

/-! ### Missing is the answer of the empty search only (R105) -/

/-- R103, R104: a payload gives ShortRecord or an entry. -/
theorem rawHardwareEntry_ne_missing (P : Params) (q : Bytes) : rawHardwareEntry P q ≠ .error .missing := by
  unfold rawHardwareEntry
  split
  · exact fun h => nomatch h
  · exact fun h => nomatch h

theorem selectTimestamp_eq_missing_iff (P : Params) (recs : List AncRecord) :
    selectTimestamp P recs = .error .missing ↔ ∀ r ∈ recs, ¬ (r.level = P.tsLevel ∧ r.type = P.tsType) := by
  induction recs with
  | nil => simp
  | cons x xs ih =>
    rw [List.forall_mem_cons]
    by_cases hx : x.level = P.tsLevel ∧ x.type = P.tsType
    · rw [selectTimestamp_cons_of_tag P x xs hx]
      exact iff_of_false (rawHardwareEntry_ne_missing P x.payload) fun ⟨hnot, _⟩ => hnot hx
    · rw [selectTimestamp_cons_of_not_tag P x xs hx, ih]
      exact (and_iff_right hx).symm

/-- The scan of R108 ends before its first turn where no header fits. -/
theorem extractTimestamp_of_length_lt (P : Params) (a : Bytes) (h : a.length < P.ancHdrBytes) :
    extractTimestamp P a = some (.error .missing) :=
  if_neg (by omega)

/-! ### The statements -/

/-- Settles O22 (R102): the other record is passed over where it stands, and the records before it see no difference. -/
theorem otherTagsContributeNothing : Obligations.OtherTagsContributeNothing := by
  unfold Obligations.OtherTagsContributeNothing
  exact fun P before after r hother =>
    selectTimestamp_append_congr P before (selectTimestamp_cons_of_not_tag P r after hother)

/-- Settles O24 (R105): a timestamping record always gives something else than Missing, and a buffer too short for a
header holds no record. -/
theorem missingExactlyWhenAbsent : Obligations.MissingExactlyWhenAbsent := by
  unfold Obligations.MissingExactlyWhenAbsent
  exact fun P recs => ⟨selectTimestamp_eq_missing_iff P recs, extractTimestamp_of_length_lt P⟩

end Sys2Proof.Machine

/-! The frame BUILDSYNC answers, field by field (spec/43_assembly.md R115 to R120). -/

namespace Sys2Proof.Machine

/-! ### BUILDSYNC's next state (R115) -/

/-- BUILDSYNC always answers the default Sync frame, and beside the response only ends the transaction. -/
theorem exec_buildSync (source : MacAddress) (sequenceId : U16) (s : State) :
    exec (.buildSync source sequenceId) s
      = .next { s with responses := s.responses ++ [.ok (.frame (defaultSync source sequenceId))], inProgress := none } :=
  (exec_eq_next _ s _).mpr ⟨_, rfl, rfl⟩

/-! ### The fields of the default Sync frame (R116 to R118) -/

section
variable (source : MacAddress) (sequenceId : U16)

theorem defaultSync_destination :
    (defaultSync source sequenceId).destination = #v[0x01, 0x80, 0xC2, 0x00, 0x00, 0x0E] := rfl

@[simp] theorem defaultSync_majorSdoId : (defaultSync source sequenceId).payload.header.majorSdoId = 1 := rfl
@[simp] theorem defaultSync_versionPtp : (defaultSync source sequenceId).payload.header.versionPtp = 2 := rfl
@[simp] theorem defaultSync_minorVersionPtp : (defaultSync source sequenceId).payload.header.minorVersionPtp = 1 := rfl
@[simp] theorem defaultSync_messageLength : (defaultSync source sequenceId).payload.header.messageLength = 44 := rfl
@[simp] theorem defaultSync_domainNumber : (defaultSync source sequenceId).payload.header.domainNumber = 0 := rfl
@[simp] theorem defaultSync_logMessagePeriod : (defaultSync source sequenceId).payload.header.logMessagePeriod = -3 := rfl
@[simp] theorem defaultSync_correctionField : (defaultSync source sequenceId).payload.header.correctionField = 0 := rfl

/-- R117: the identity is DERIVE's. -/
@[simp] theorem defaultSync_sourcePortIdentity :
    (defaultSync source sequenceId).payload.header.sourcePortIdentity
      = { clockIdentity := insertFFFE source, portNumber := 1 } := rfl

@[simp] theorem defaultSync_originTimestamp :
    (defaultSync source sequenceId).payload.originTimestamp
      = { secondsMsb := 0, secondsLsb := 0, nanoseconds := 0 } := rfl

end

/-! ### The statement -/

/-- Settles O27 (R116 to R118): the frame is the default Sync, whose fields are the lemmas above. -/
theorem buildSyncListedFields : Obligations.BuildSyncListedFields := by
  unfold Obligations.BuildSyncListedFields
  intro source sequenceId s
  refine ⟨defaultSync source sequenceId, exec_buildSync source sequenceId s,
    defaultSync_destination source sequenceId, ?_⟩
  simp

end Sys2Proof.Machine

/-! DECODE's one error and what it leaves of the state (spec/60_exceptions.md R126, R129). -/

namespace Sys2Proof.Machine

/-- An error of the frame decoder is the whole response (R129). -/
theorem responseTo_decode_of_error (P : Params) {b : Bytes} {e : DecodeError} (h : decodeFrame b = .error e) :
    responseTo P (.decode b) = some (.error (.decode e)) := by
  simp only [responseTo, h]

/-- An error of the frame decoder is reported, and beside that only ends the transaction. -/
theorem exec_decode_of_error {b : Bytes} {e : DecodeError} (s : State) (h : decodeFrame b = .error e) :
    exec (.decode b) s = .next (s.respond (.error (.decode e))) :=
  (exec_eq_next _ s _).mpr ⟨_, responseTo_decode_of_error s.params h, rfl⟩

/-! ### The statement -/

/-- Settles O5 (R126): another length than 58 is what makes the frame decoder fail, whatever the bytes. -/
theorem decodeRejectsEveryOtherSize : Obligations.DecodeRejectsEveryOtherSize := by
  unfold Obligations.DecodeRejectsEveryOtherSize
  intro b s hlen
  have herr : decodeFrame b = .error .sizeMismatch := (decodeFrame_error_iff b .sizeMismatch).mpr hlen
  exact exec_decode_of_error s herr

end Sys2Proof.Machine

/-! The frame table of spec/30_encoding.md R51 in both directions, and the round-trip law of spec/41_codec.md R92. What
ENCODE writes is had from what DECODE reads: the frame DECODE reads encodes to the same bytes, and ENCODE loses nothing
but the EtherType member. -/

namespace Sys2Proof.Machine

/-! ### The two instructions' next states (R85, R89) -/

theorem exec_encode (f : EthernetFrame) (s : State) :
    exec (.encode f) s = .next (s.respond (.ok (.bytes (encodeFrame f)))) :=
  (exec_eq_next _ s _).mpr ⟨_, rfl, rfl⟩

theorem exec_decode_of_ok {b : Bytes} {f : EthernetFrame} (s : State) (h : decodeFrame b = .ok f) :
    exec (.decode b) s = .next (s.respond (.ok (.frame f))) :=
  (exec_eq_next _ s _).mpr ⟨_, by simp only [responseTo, h], rfl⟩

/-! ### DECODE after ENCODE (R92) -/

/-- R87: ENCODE does not look at the EtherType member. -/
theorem encodeFrame_with_etherType (f : EthernetFrame) (e : U16) : encodeFrame { f with etherType := e } = encodeFrame f :=
  rfl

/-- The bytes carry the constant, so the frame DECODE reads from them encodes to them again. -/
theorem decodeFields_encodeFrame (f : EthernetFrame) :
    decodeFields (encodeFrame f) = { f with etherType := etherTypePtp } := by
  have hconst := memRead_encodeFrame_etherType f
  have hetype : (decodeFields (encodeFrame f)).etherType = etherTypePtp :=
    (validFrame_iff _).mp (validFrame_decodeFields _ hconst)
  have henc := (encodeFrame_decodeFields_eq_iff _ (encodeFrame_length f)).mpr hconst
  exact encodeFrame_inj_of_etherType_eq hetype (henc.trans (encodeFrame_with_etherType f etherTypePtp).symm)

theorem decodeFrame_encodeFrame (f : EthernetFrame) :
    decodeFrame (encodeFrame f) = .ok { f with etherType := etherTypePtp } :=
  (decodeFrame_ok_iff _ _).mpr ⟨encodeFrame_length f, (decodeFields_encodeFrame f).symm⟩

/-! ### The frame table (R51) -/

theorem bigEndianSlices_u16 (v : U16) : bigEndianSlices v = encU16 v := bigEndianSlices_eq_toBE (k := 2) v
theorem bigEndianSlices_u32 (v : U32) : bigEndianSlices v = encU32 v := bigEndianSlices_eq_toBE (k := 4) v
theorem bigEndianSlices_i64 (v : I64) : bigEndianSlices v.toBitVec = encI64 v :=
  (bigEndianSlices_eq_toBE (k := 8) v.toBitVec).trans (encI64_eq v).symm

/-- A byte is the append of its nibbles, at its offset (R55, R56). -/
theorem highNibble_append_lowNibble_byteAt (w : Bytes) (i : Nat) (h : i < w.length) :
    [highNibble (byteAt w i) ++ lowNibble (byteAt w i)] = memRead w i 1 := by
  rw [highNibble_append_lowNibble, memRead_one w i h]

/-- Every field of `f` stands in `w` at its offset: the table of R51, the EtherType read like any other field. -/
structure FieldsAt (w : Bytes) (f : EthernetFrame) : Prop where
  destination : f.destination.toList = memRead w 0 6
  source : f.source.toList = memRead w 6 6
  etherType : bigEndianSlices f.etherType = memRead w 12 2
  firstPair : [f.payload.header.majorSdoId ++ f.payload.header.messageType] = memRead w 14 1
  secondPair : [f.payload.header.minorVersionPtp ++ f.payload.header.versionPtp] = memRead w 15 1
  messageLength : bigEndianSlices f.payload.header.messageLength = memRead w 16 2
  domainNumber : [f.payload.header.domainNumber] = memRead w 18 1
  minorSdoId : [f.payload.header.minorSdoId] = memRead w 19 1
  flags : f.payload.header.flags.toList = memRead w 20 2
  correctionField : bigEndianSlices f.payload.header.correctionField.toBitVec = memRead w 22 8
  messageTypeSpecific : f.payload.header.messageTypeSpecific.toList = memRead w 30 4
  clockIdentity : f.payload.header.sourcePortIdentity.clockIdentity.toList = memRead w 34 8
  portNumber : bigEndianSlices f.payload.header.sourcePortIdentity.portNumber = memRead w 42 2
  sequenceId : bigEndianSlices f.payload.header.sequenceId = memRead w 44 2
  controlField : [f.payload.header.controlField] = memRead w 46 1
  logMessagePeriod : [f.payload.header.logMessagePeriod.toBitVec] = memRead w 47 1
  secondsMsb : bigEndianSlices f.payload.originTimestamp.secondsMsb = memRead w 48 2
  secondsLsb : bigEndianSlices f.payload.originTimestamp.secondsLsb = memRead w 50 4
  nanoseconds : bigEndianSlices f.payload.originTimestamp.nanoseconds = memRead w 54 4

/-- R90, field by field. -/
theorem fieldsAt_decodeFields (w : Bytes) (h : w.length = 58) : FieldsAt w (decodeFields w) := by
  have arr (off n : Nat) (hoff : off + n ≤ 58) := readArr_toList w off n (h ▸ hoff)
  have byte (i : Nat) (hi : i < 58) := (memRead_one w i (h ▸ hi)).symm
  have pair (i : Nat) (hi : i < 58) := highNibble_append_lowNibble_byteAt w i (h ▸ hi)
  have u16 (off : Nat) (hoff : off + 2 ≤ 58) := (bigEndianSlices_u16 _).trans (encU16_decU16 w off (h ▸ hoff))
  have u32 (off : Nat) (hoff : off + 4 ≤ 58) := (bigEndianSlices_u32 _).trans (encU32_decU32 w off (h ▸ hoff))
  exact
    { destination := arr 0 6 (by decide)
      source := arr 6 6 (by decide)
      etherType := u16 12 (by decide)
      firstPair := pair 14 (by decide)
      secondPair := pair 15 (by decide)
      messageLength := u16 16 (by decide)
      domainNumber := byte 18 (by decide)
      minorSdoId := byte 19 (by decide)
      flags := arr 20 2 (by decide)
      correctionField := (bigEndianSlices_i64 _).trans (encI64_decI64 w 22 (by omega))
      messageTypeSpecific := arr 30 4 (by decide)
      clockIdentity := arr 34 8 (by decide)
      portNumber := u16 42 (by decide)
      sequenceId := u16 44 (by decide)
      controlField := byte 46 (by decide)
      logMessagePeriod := by
        rw [memRead_one w 47 (by omega), ← encI8_decI8 w 47, encI8_eq]; rfl
      secondsMsb := u16 48 (by decide)
      secondsLsb := u32 50 (by decide)
      nanoseconds := u32 54 (by decide) }

/-- R86, R87: what ENCODE writes is the table, with the EtherType made the constant. -/
theorem fieldsAt_encodeFrame (f : EthernetFrame) : FieldsAt (encodeFrame f) { f with etherType := etherTypePtp } :=
  decodeFields_encodeFrame f ▸ fieldsAt_decodeFields (encodeFrame f) (encodeFrame_length f)

/-! ### Two adjacent words are one big-endian word (R64, D26) -/

theorem fromBE_append (a b : Bytes) : fromBE (a ++ b) = fromBE a * 256 ^ b.length + fromBE b := by
  induction a with
  | nil => simp [fromBE]
  | cons x xs ih =>
    simp only [List.cons_append, fromBE, ih, List.length_append, Nat.pow_add]
    ring

theorem seconds48_toNat (t : OriginTimestamp) :
    (seconds48 t).toNat = t.secondsMsb.toNat * 2 ^ 32 + t.secondsLsb.toNat := by
  have hmsb : t.secondsMsb.toNat < 2 ^ 16 := t.secondsMsb.isLt
  have hlsb : t.secondsLsb.toNat < 2 ^ 32 := t.secondsLsb.isLt
  rw [seconds48, BitVec.toNat_or, BitVec.toNat_shiftLeft, BitVec.toNat_setWidth_of_le (by decide),
    BitVec.toNat_setWidth_of_le (by decide), Nat.shiftLeft_eq, Nat.mod_eq_of_lt (by omega), ← Nat.shiftLeft_eq,
    ← Nat.shiftLeft_add_eq_or_of_lt hlsb]

/-- The seconds count is the big-endian reading of the two seconds fields' bytes. -/
theorem fromBE_encU16_append_encU32 (t : OriginTimestamp) :
    fromBE (encU16 t.secondsMsb ++ encU32 t.secondsLsb) = (seconds48 t).toNat := by
  rw [fromBE_append, fromBE_encU16, fromBE_encU32, encU32_length, seconds48_toNat]
  rfl

theorem bigEndianSlices_seconds48 (t : OriginTimestamp) :
    bigEndianSlices (seconds48 t) = encU16 t.secondsMsb ++ encU32 t.secondsLsb := by
  rw [bigEndianSlices_eq_toBE (k := 6) (seconds48 t), ← fromBE_encU16_append_encU32]
  exact toBE_fromBE (encU16 t.secondsMsb ++ encU32 t.secondsLsb)

/-- In a frame and its bytes the seconds fields stand side by side. -/
theorem FieldsAt.seconds {w : Bytes} {f : EthernetFrame} (h : FieldsAt w f) :
    bigEndianSlices (seconds48 f.payload.originTimestamp) = memRead w 48 6 := by
  rw [bigEndianSlices_seconds48, ← bigEndianSlices_u16, ← bigEndianSlices_u32, h.secondsMsb, h.secondsLsb,
    memRead_append_memRead w 48 2 50 4 rfl]

/-! ### Overwriting one field (R145) -/

/-- The frame with another correctionField. -/
def withCorrection (f : EthernetFrame) (c : I64) : EthernetFrame :=
  { f with payload := { f.payload with header := { f.payload.header with correctionField := c } } }

/-- Another correctionField changes the eight bytes at 22 and no others. -/
theorem encodeFrame_withCorrection (f : EthernetFrame) (c : I64) :
    encodeFrame (withCorrection f c) = (encodeFrame f).take 22 ++ encI64 c ++ (encodeFrame f).drop 30 := by
  simp (disch := simp) [encodeFrame, encodeEthernetHeader, encodePtpHeader, withCorrection, List.take_append,
    List.drop_append, List.take_of_length_le, List.drop_of_length_le]

/-! ### The statements -/

/-- Settles O11 (R92): DECODE reads the frame that encodes to the same bytes. -/
theorem decodeAfterEncodeIsIdentity : Obligations.DecodeAfterEncodeIsIdentity := by
  unfold Obligations.DecodeAfterEncodeIsIdentity
  refine fun f s => ⟨encodeFrame f, exec_encode f s, fun t => exec_decode_of_ok t (decodeFrame_encodeFrame f), fun hf => ?_⟩
  rw [decodeFrame_encodeFrame, ← (validFrame_iff f).mp hf]

/-- Settles O6 (R90, D5, D6, D8). -/
theorem decodeReadsEveryField : Obligations.DecodeReadsEveryField := by
  unfold Obligations.DecodeReadsEveryField
  intro w s hlen
  have hdec : decodeFrame w = .ok (decodeFields w) := (decodeFrame_ok_iff w _).mpr ⟨hlen, rfl⟩
  have hf := fieldsAt_decodeFields w hlen
  exact ⟨decodeFields w, exec_decode_of_ok s hdec, hf.destination, hf.source, hf.etherType, hf.firstPair, hf.secondPair,
    hf.messageLength, hf.domainNumber, hf.minorSdoId, hf.flags, hf.correctionField, hf.messageTypeSpecific,
    hf.clockIdentity, hf.portNumber, hf.sequenceId, hf.controlField, hf.logMessagePeriod, hf.secondsMsb, hf.secondsLsb,
    hf.nanoseconds⟩

/-- Settles O3 (R86, D5, D6, D8). -/
theorem encodeWritesEveryField : Obligations.EncodeWritesEveryField := by
  unfold Obligations.EncodeWritesEveryField
  intro f s
  have hf := fieldsAt_encodeFrame f
  exact ⟨encodeFrame f, exec_encode f s, encodeFrame_length f, hf.destination.symm, hf.source.symm,
    memRead_encodeFrame_etherType f, hf.firstPair.symm, hf.secondPair.symm, hf.messageLength.symm, hf.domainNumber.symm,
    hf.minorSdoId.symm, hf.flags.symm, hf.correctionField.symm, hf.messageTypeSpecific.symm, hf.clockIdentity.symm,
    hf.portNumber.symm, hf.sequenceId.symm, hf.controlField.symm, hf.logMessagePeriod.symm, hf.secondsMsb.symm,
    hf.secondsLsb.symm, hf.nanoseconds.symm⟩

/-- Settles O4 (R87, D8). -/
theorem encodeIgnoresEtherTypeMember : Obligations.EncodeIgnoresEtherTypeMember := by
  unfold Obligations.EncodeIgnoresEtherTypeMember
  refine fun f e s => ⟨?_, memRead_encodeFrame_etherType _⟩
  rw [exec_encode, exec_encode, encodeFrame_with_etherType]

/-- Settles O8 (R56, D6). -/
theorem secondNibblePairPosition : Obligations.SecondNibblePairPosition := by
  unfold Obligations.SecondNibblePairPosition
  refine ⟨fun f => ?_, fun w f hdec => ?_⟩
  · have hbyte : byteAt (encodeFrame f) 15 = packNibbles f.payload.header.minorVersionPtp f.payload.header.versionPtp :=
      byteAt_encodeFrame_header f 1 (by decide)
    rw [hbyte, packNibbles_toNat]
  · obtain ⟨-, rfl⟩ := (decodeFrame_ok_iff w f).mp hdec
    exact ⟨lowNibble_toNat _, highNibble_toNat _⟩

/-- Settles O15 (R17, R64, D26): six bytes are read as one word or as two, and the number is the same. -/
theorem secondsAreContiguous : Obligations.SecondsAreContiguous := by
  unfold Obligations.SecondsAreContiguous
  refine ⟨fun f => (fieldsAt_encodeFrame f).seconds.symm, fun w f hdec => ?_, seconds48_toNat⟩
  obtain ⟨hlen, rfl⟩ := (decodeFrame_ok_iff w f).mp hdec
  rw [← (fieldsAt_decodeFields w hlen).seconds, bigEndianSlices_seconds48, fromBE_encU16_append_encU32]

/-- Settles O14 (R145): the overwritten bytes are the encoding of the frame sent with that correctionField. -/
theorem adapterOverwriteChangesOnlyCorrection : Obligations.AdapterOverwriteChangesOnlyCorrection := by
  unfold Obligations.AdapterOverwriteChangesOnlyCorrection
  intro f c hvalid hc
  have hread : memRead c 0 8 = c := hc ▸ memRead_self c
  have henc : encodeFrame (withCorrection f (decI64 c 0)) = (encodeFrame f).take 22 ++ c ++ (encodeFrame f).drop 30 := by
    rw [encodeFrame_withCorrection, encI64_decI64 c 0 hc.ge, hread]
  have hetype : (withCorrection f (decI64 c 0)).etherType = etherTypePtp := (validFrame_iff f).mp hvalid
  refine ⟨withCorrection f (decI64 c 0), ?_, ?_, rfl⟩
  · rw [← henc, decodeFrame_ok_iff, decodeFields_encodeFrame, ← hetype]
    exact ⟨encodeFrame_length _, rfl⟩
  · change (decI64 c 0).toInt = asSigned 64 (fromBE c)
    rw [decI64_toInt, hread]

end Sys2Proof.Machine

/-! The default Sync frame as 58 bytes, and what of it depends on the sequence number (spec/43_assembly.md,
spec/95_test_vectors.md V20, V51, V52). -/

namespace Sys2Proof.Machine

/-! ### The fields the source does not list (R119, R121, D17) -/

section
variable (source : MacAddress) (sequenceId : U16)

@[simp] theorem defaultSync_source : (defaultSync source sequenceId).source = source := rfl
@[simp] theorem defaultSync_sequenceId : (defaultSync source sequenceId).payload.header.sequenceId = sequenceId := rfl
@[simp] theorem defaultSync_messageType : (defaultSync source sequenceId).payload.header.messageType = 0 := rfl
@[simp] theorem defaultSync_minorSdoId : (defaultSync source sequenceId).payload.header.minorSdoId = 0 := rfl
@[simp] theorem defaultSync_flags : (defaultSync source sequenceId).payload.header.flags = #v[0, 0] := rfl
@[simp] theorem defaultSync_messageTypeSpecific :
    (defaultSync source sequenceId).payload.header.messageTypeSpecific = #v[0, 0, 0, 0] := rfl
@[simp] theorem defaultSync_controlField : (defaultSync source sequenceId).payload.header.controlField = 0 := rfl

theorem validFrame_defaultSync : validFrame (defaultSync source sequenceId) = true :=
  (validFrame_iff _).mpr rfl

/-! ### The three parts of the encoding (R86) -/

theorem encodeEthernetHeader_defaultSync :
    encodeEthernetHeader (defaultSync source sequenceId)
      = ([0x01, 0x80, 0xC2, 0x00, 0x00, 0x0E] : Bytes) ++ source.toList ++ [0x88, 0xF7] := rfl

/-- Offsets 18 to 33, from domainNumber to messageTypeSpecific, are the sixteen zeros. -/
theorem encodePtpHeader_defaultSync :
    encodePtpHeader (defaultSync source sequenceId).payload.header
      = ([0x10, 0x12, 0x00, 0x2C] : Bytes) ++ List.replicate 16 (0 : Byte)
        ++ ([source[0], source[1], source[2], 0xFF, 0xFE, source[3], source[4], source[5], 0x00, 0x01] : Bytes)
        ++ bigEndianSlices sequenceId ++ ([0x00, 0xFD] : Bytes) := by
  have hpair14 : packNibbles 1 0 = 0x10 := rfl
  have hpair15 : packNibbles 1 2 = 0x12 := rfl
  have hlength : encU16 44 = [0x00, 0x2C] := rfl
  have hcorrection : encI64 0 = List.replicate 8 0 := by decide
  have hport : encU16 1 = [0x00, 0x01] := rfl
  have hperiod : encI8 (-3) = 0xFD := rfl
  simp only [bigEndianSlices_u16, encodePtpHeader, defaultSync_majorSdoId, defaultSync_messageType,
    defaultSync_minorVersionPtp, defaultSync_versionPtp, defaultSync_messageLength, defaultSync_correctionField,
    defaultSync_sourcePortIdentity, defaultSync_logMessagePeriod, hpair14, hpair15, hlength, hcorrection, hport, hperiod]
  rfl

theorem encodeOriginTimestamp_defaultSync :
    encodeOriginTimestamp (defaultSync source sequenceId).payload.originTimestamp = List.replicate 10 0 := by
  rw [defaultSync_originTimestamp]
  decide

end

/-! ### Bytes beside a part that differs -/

/-- Concatenations that differ in a middle part of one length agree at every index outside it. -/
theorem byteAt_append_middle_congr (pre post : Bytes) {x y : Bytes} (hxy : x.length = y.length) (i : Nat)
    (h : i < pre.length ∨ pre.length + x.length ≤ i) : byteAt (pre ++ x ++ post) i = byteAt (pre ++ y ++ post) i := by
  unfold byteAt
  rcases h with hbefore | hafter
  · rw [List.append_assoc, List.append_assoc, List.getD_append _ _ _ _ hbefore, List.getD_append _ _ _ _ hbefore]
  · rw [List.getD_append_right _ _ _ _ (by simpa using hafter),
      List.getD_append_right _ _ _ _ (by simpa [← hxy] using hafter), List.length_append, List.length_append, hxy]

/-! ### The statements -/

/-- Settles O29 (V20, V51, D17): the three parts in order. -/
theorem buildSyncBytes : Obligations.BuildSyncBytes := by
  unfold Obligations.BuildSyncBytes
  intro m n
  rw [encodeFrame, encodeEthernetHeader_defaultSync, encodePtpHeader_defaultSync, encodeOriginTimestamp_defaultSync]
  simp only [List.append_assoc, List.cons_append, List.nil_append]

/-- Settles O30 (V52): offsets 44 and 45 are the one part of the bytes that the sequence number is in. -/
theorem buildSyncDiffersOnlyInSequence : Obligations.BuildSyncDiffersOnlyInSequence := by
  unfold Obligations.BuildSyncDiffersOnlyInSequence
  intro m n n'
  refine ⟨rfl, fun i h44 h45 => ?_⟩
  rw [buildSyncBytes m n, buildSyncBytes m n', List.append_assoc _ [0x00, 0xFD], List.append_assoc _ [0x00, 0xFD]]
  refine byteAt_append_middle_congr _ _ ?_ i ?_
  · rw [bigEndianSlices_u16, bigEndianSlices_u16, encU16_length, encU16_length]
  · rw [bigEndianSlices_u16, encU16_length]
    simp only [List.length_append, List.length_cons, List.length_nil, List.length_replicate, Vector.length_toList]
    omega

/-- Settles O28 (R119, R121, D17). -/
theorem buildSyncUnlistedFields : Obligations.BuildSyncUnlistedFields := by
  unfold Obligations.BuildSyncUnlistedFields
  intro source sequenceId s
  refine ⟨defaultSync source sequenceId, exec_buildSync source sequenceId s, ?_⟩
  simp [validFrame_defaultSync]

end Sys2Proof.Machine

/-! One turn of the scan and of the cutting at any offset, and what EXTRACT makes of a buffer: which buffers it refuses, which
record decides, and that the byte layer refines the record layer (spec/42_timestamp.md R100 to R109, spec/30_encoding.md R69,
R70). -/

namespace Sys2Proof.Machine

/-! ### EXTRACT's next state (R108, R109) -/

/-- The response to a timestamp or an error. -/
def timestampResponse (e : Except TimestampError HardwareTimestamp) : Response :=
  match e with
  | .ok t => .ok (.timestamp t)
  | .error e => .error (.timestamp e)

theorem responseTo_extract (P : Params) (a : Bytes) :
    responseTo P (.extract a) = (extractTimestamp P a).map timestampResponse := by
  simp only [responseTo]
  rcases extractTimestamp P a with _ | (_ | _) <;> rfl

theorem exec_extract_of_some {s : State} {a : Bytes} {e : Except TimestampError HardwareTimestamp}
    (h : extractTimestamp s.params a = some e) : exec (.extract a) s = .next (s.respond (timestampResponse e)) := by
  rw [exec_eq, responseTo_extract, h]
  rfl

theorem exec_extract_of_none {s : State} {a : Bytes} (h : extractTimestamp s.params a = none) :
    exec (.extract a) s = .refused .illFramedAncillary := by
  rw [exec_eq, responseTo_extract, h]
  rfl

/-! ### The bounds of a length word (R70) -/

theorem headerWellFramed_iff (P : Params) (a : Bytes) (p : Nat) :
    headerWellFramed P a p = true ↔ P.ancHdrBytes ≤ (readHeader P a p).len ∧ (readHeader P a p).len ≤ a.length - p :=
  decide_eq_true_iff

/-! ### One turn at an offset (R69, R70, R102, R106) -/

section
variable {P : Params} {a : Bytes} {p : Nat}

/-- Fewer bytes than a header are left: there is no further record (R105). -/
theorem scanFrom_of_no_header (n : Nat) (h : a.length < p + P.ancHdrBytes) :
    scanFrom P a (n + 1) p = some (.error .missing) :=
  if_neg (by omega)

theorem scanFrom_of_illFramed (n : Nat) (hdr : p + P.ancHdrBytes ≤ a.length) (hwf : headerWellFramed P a p = false) :
    scanFrom P a (n + 1) p = none := by
  rw [scanFrom, if_pos hdr, if_neg (by simp [hwf])]

theorem scanFrom_of_tag (n : Nat) (hdr : p + P.ancHdrBytes ≤ a.length) (hwf : headerWellFramed P a p = true)
    (htag : (readHeader P a p).level = P.tsLevel ∧ (readHeader P a p).type = P.tsType) :
    scanFrom P a (n + 1) p = some (rawHardwareEntry P (readPayload P a p)) := by
  rw [scanFrom, if_pos hdr, if_pos hwf, if_pos ((isTimestampTag_eq_true ..).mpr htag)]

theorem scanFrom_of_not_tag (n : Nat) (hdr : p + P.ancHdrBytes ≤ a.length) (hwf : headerWellFramed P a p = true)
    (htag : ¬ ((readHeader P a p).level = P.tsLevel ∧ (readHeader P a p).type = P.tsType)) :
    scanFrom P a (n + 1) p = scanFrom P a n (nextRecord P a p) := by
  rw [scanFrom, if_pos hdr, if_pos hwf, if_neg (mt (isTimestampTag_eq_true ..).mp htag)]

end

/-- The four things one turn of the scan can find. -/
theorem scanFrom_turn (P : Params) (a : Bytes) (p : Nat) :
    a.length < p + P.ancHdrBytes
      ∨ p + P.ancHdrBytes ≤ a.length ∧ (headerWellFramed P a p = false
        ∨ headerWellFramed P a p = true
          ∧ ((readHeader P a p).level = P.tsLevel ∧ (readHeader P a p).type = P.tsType
            ∨ ¬ ((readHeader P a p).level = P.tsLevel ∧ (readHeader P a p).type = P.tsType))) := by
  rcases Nat.lt_or_ge a.length (p + P.ancHdrBytes) with h | h
  · exact .inl h
  · cases headerWellFramed P a p
    · exact .inr ⟨h, .inl rfl⟩
    · exact .inr ⟨h, .inr ⟨rfl, em _⟩⟩

/-! ### What the scan answers -/

/-- Every timestamp is the third entry of a payload that holds three (R103, R104). -/
theorem rawHardwareEntry_eq_ok {P : Params} {q : Bytes} {t : HardwareTimestamp} (h : rawHardwareEntry P q = .ok t) :
    t = readEntry P q tsSelect := by
  unfold rawHardwareEntry at h
  split at h
  · cases h
  · exact (Except.ok.inj h).symm

/-- The scan gives Missing, or what one payload gives. -/
theorem scanFrom_eq_some {P : Params} {a : Bytes} {n p : Nat} {e : Except TimestampError HardwareTimestamp}
    (h : scanFrom P a n p = some e) : e = .error .missing ∨ ∃ q, e = rawHardwareEntry P q := by
  induction n generalizing p with
  | zero => cases h
  | succ n ih =>
    obtain hend | ⟨hdr, hill | ⟨hwf, htag | htag⟩⟩ := scanFrom_turn P a p
    · rw [scanFrom_of_no_header n hend] at h
      exact .inl (Option.some.inj h).symm
    · rw [scanFrom_of_illFramed n hdr hill] at h
      cases h
    · rw [scanFrom_of_tag n hdr hwf htag] at h
      exact .inr ⟨_, (Option.some.inj h).symm⟩
    · rw [scanFrom_of_not_tag n hdr hwf htag] at h
      exact ih h

/-- A scan with turns enough is refused exactly where well-framedness fails: the two look at the same records (R70, R109). -/
theorem scanFrom_eq_none_iff (P : Params) (a : Bytes) (n p : Nat) (hn : a.length < n + p) (h0 : 0 < n) :
    scanFrom P a n p = none ↔ wellFramedFrom P a n p = false := by
  induction n generalizing p with
  | zero => omega
  | succ n ih =>
    obtain hend | ⟨hdr, hill | ⟨hwf, htag | htag⟩⟩ := scanFrom_turn P a p
    · simp [scanFrom_of_no_header n hend, wellFramedFrom, hend]
    · simp [scanFrom_of_illFramed n hdr hill, wellFramedFrom, hdr, hill]
    · simp [scanFrom_of_tag n hdr hwf htag, wellFramedFrom, hdr, hwf, (isTimestampTag_eq_true ..).mpr htag]
    · have hgt := nextRecord_gt P a p hwf
      have hpos := ancHdrBytes_pos P
      rw [scanFrom_of_not_tag n hdr hwf htag, ih _ (by omega) (by omega)]
      simp [wellFramedFrom, hdr, hwf, (isTimestampTag_eq_false ..).mpr htag]

theorem extractTimestamp_eq_none_iff (P : Params) (a : Bytes) :
    extractTimestamp P a = none ↔ wellFramed P a = false :=
  scanFrom_eq_none_iff P a (a.length + 1) 0 (by omega) (by omega)

theorem extractTimestamp_isSome_iff (P : Params) (a : Bytes) :
    (∃ e, extractTimestamp P a = some e) ↔ wellFramed P a = true := by
  rw [← Option.ne_none_iff_exists', Ne, extractTimestamp_eq_none_iff, Bool.not_eq_false]

/-! ### Bytes after the deciding record (R108, D14) -/

/-- A header inside the buffer is read the same with bytes appended. -/
theorem readHeader_append (P : Params) (a tail : Bytes) (p : Nat) (h : p + P.ancHdrBytes ≤ a.length) :
    readHeader P (a ++ tail) p = readHeader P a p := by
  unfold Params.ancHdrBytes at h
  simp (disch := omega) only [readHeader, readSigned, memRead_append_left]

theorem headerWellFramed_append (P : Params) (a tail : Bytes) (p : Nat) (h : p + P.ancHdrBytes ≤ a.length)
    (hwf : headerWellFramed P a p = true) : headerWellFramed P (a ++ tail) p = true := by
  rw [headerWellFramed_iff] at hwf ⊢
  rw [readHeader_append P a tail p h, List.length_append]
  omega

theorem readPayload_append (P : Params) (a tail : Bytes) (p : Nat) (h : p + P.ancHdrBytes ≤ a.length)
    (hwf : headerWellFramed P a p = true) : readPayload P (a ++ tail) p = readPayload P a p := by
  rw [headerWellFramed_iff] at hwf
  rw [readPayload, readHeader_append P a tail p h, memRead_append_left _ _ _ _ (by omega), readPayload]

/-- A scan that ends in another result than Missing has read only the records up to the deciding one. -/
theorem scanFrom_append {P : Params} {a : Bytes} {n p : Nat} {e : Except TimestampError HardwareTimestamp}
    (tail : Bytes) (h : scanFrom P a n p = some e) (hne : e ≠ .error .missing) (m : Nat) (hm : n ≤ m) :
    scanFrom P (a ++ tail) m p = some e := by
  induction n generalizing p m with
  | zero => cases h
  | succ n ih =>
    obtain ⟨m, rfl⟩ : ∃ k, m = k + 1 := ⟨m - 1, by omega⟩
    obtain hend | ⟨hdr, hill | ⟨hwf, htag⟩⟩ := scanFrom_turn P a p
    · rw [scanFrom_of_no_header n hend] at h
      exact absurd (Option.some.inj h).symm hne
    · rw [scanFrom_of_illFramed n hdr hill] at h
      cases h
    · have hdr' : p + P.ancHdrBytes ≤ (a ++ tail).length := by rw [List.length_append]; omega
      have hwf' := headerWellFramed_append P a tail p hdr hwf
      have hread := readHeader_append P a tail p hdr
      rcases htag with htag | htag
      · rw [scanFrom_of_tag n hdr hwf htag] at h
        rw [scanFrom_of_tag m hdr' hwf' (by rwa [hread]), readPayload_append P a tail p hdr hwf, h]
      · rw [scanFrom_of_not_tag n hdr hwf htag] at h
        rw [scanFrom_of_not_tag m hdr' hwf' (by rwa [hread]), nextRecord, hread]
        exact ih h m (by omega)

/-! ### The byte layer refines the record layer (R108) -/

/-- The record at an offset (R69). -/
def readRecord (P : Params) (a : Bytes) (p : Nat) : AncRecord where
  level := (readHeader P a p).level
  type := (readHeader P a p).type
  payload := readPayload P a p

theorem cutFrom_of_no_header {P : Params} {a : Bytes} {p : Nat} (n : Nat) (h : a.length < p + P.ancHdrBytes) :
    cutFrom P a (n + 1) p = some [] :=
  if_neg (by omega)

theorem cutFrom_of_illFramed {P : Params} {a : Bytes} {p : Nat} (n : Nat) (hdr : p + P.ancHdrBytes ≤ a.length)
    (hwf : headerWellFramed P a p = false) : cutFrom P a (n + 1) p = none := by
  rw [cutFrom, if_pos hdr, if_neg (by simp [hwf])]

theorem cutFrom_of_wellFramed {P : Params} {a : Bytes} {p : Nat} (n : Nat) (hdr : p + P.ancHdrBytes ≤ a.length)
    (hwf : headerWellFramed P a p = true) :
    cutFrom P a (n + 1) p = (cutFrom P a n (nextRecord P a p)).map (readRecord P a p :: ·) := by
  rw [cutFrom, if_pos hdr, if_pos hwf]
  cases cutFrom P a n (nextRecord P a p) <;> rfl

/-- Record by record: the scan stops at the first timestamping record, the cutting goes on. -/
theorem scanFrom_of_cutFrom {P : Params} {a : Bytes} {n p : Nat} {recs : List AncRecord}
    (h : cutFrom P a n p = some recs) : scanFrom P a n p = some (selectTimestamp P recs) := by
  induction n generalizing p recs with
  | zero => cases h
  | succ n ih =>
    obtain hend | ⟨hdr, hill | ⟨hwf, htag⟩⟩ := scanFrom_turn P a p
    · rw [cutFrom_of_no_header n hend] at h
      rw [scanFrom_of_no_header n hend, ← Option.some.inj h, selectTimestamp_nil]
    · rw [cutFrom_of_illFramed n hdr hill] at h
      cases h
    · rw [cutFrom_of_wellFramed n hdr hwf] at h
      obtain ⟨recs', hcut, rfl⟩ := Option.map_eq_some_iff.mp h
      rcases htag with htag | htag
      · rw [scanFrom_of_tag n hdr hwf htag, selectTimestamp_cons_of_tag P (readRecord P a p) _ htag]
        rfl
      · rw [scanFrom_of_not_tag n hdr hwf htag, selectTimestamp_cons_of_not_tag P (readRecord P a p) _ htag, ih hcut]

/-! ### Cutting a framed list of records (R69, R70) -/

/-- A record that fits its words: one turn of the cutting reads it back. -/
theorem cutFrom_recordBytes {P : Params} {a pre tail : Bytes} {r : AncRecord} (ha : a = pre ++ recordBytes P r ++ tail)
    (n : Nat) (h : recordFits P r = true) :
    cutFrom P a (n + 1) pre.length
      = (cutFrom P a n (pre.length + roundUp (P.ancHdrBytes + r.payload.length) P.ancAlign)).map (r :: ·) := by
  subst ha
  have hdr : pre.length + P.ancHdrBytes ≤ (pre ++ recordBytes P r ++ tail).length := by
    simp only [List.length_append, recordBytes_length]
    omega
  have hread : readRecord P (pre ++ recordBytes P r ++ tail) pre.length = r := by
    rw [readRecord, readHeader_recordBytes P pre tail r h, readPayload_recordBytes P pre tail r h]
  rw [cutFrom_of_wellFramed n hdr (headerWellFramed_recordBytes P pre tail r h), hread,
    nextRecord_recordBytes P pre tail r h]

/-- Cutting goes through padded records one turn each, and then on with what follows them. -/
theorem cutFrom_framePadded {P : Params} {xs : List (AncRecord × Bytes)} {a rest : Bytes} {recs : List AncRecord} {k : Nat}
    (hx : ∀ x ∈ xs, recordFits P x.1 = true ∧ PadsToAlign P (P.ancHdrBytes + x.1.payload.length) x.2) (pre : Bytes)
    (ha : a = pre ++ framePadded P xs ++ rest)
    (hrest : ∀ m, k ≤ m → cutFrom P a m (pre ++ framePadded P xs).length = some recs)
    (n : Nat) (hn : k + xs.length ≤ n) : cutFrom P a n pre.length = some (xs.map Prod.fst ++ recs) := by
  induction xs generalizing pre n with
  | nil => simpa [framePadded] using hrest n (by simpa using hn)
  | cons x xs ih =>
    obtain ⟨⟨hfits, hpad⟩, hxs⟩ := List.forall_mem_cons.mp hx
    rw [List.length_cons] at hn
    obtain ⟨n, rfl⟩ : ∃ m, n = m + 1 := ⟨n - 1, by omega⟩
    have hsplit : pre ++ framePadded P (x :: xs) = pre ++ recordBytes P x.1 ++ x.2 ++ framePadded P xs := by
      simp only [framePadded, List.append_assoc]
    rw [hsplit] at ha hrest
    have hnext : pre.length + roundUp (P.ancHdrBytes + x.1.payload.length) P.ancAlign
        = (pre ++ recordBytes P x.1 ++ x.2).length := by
      rw [roundUp_eq _ _ _ hpad.1 hpad.2, List.length_append, List.length_append, recordBytes_length]
      omega
    have hcut := ih hxs (pre ++ recordBytes P x.1 ++ x.2) ha hrest n (by omega)
    have hrecord : a = pre ++ recordBytes P x.1 ++ (x.2 ++ (framePadded P xs ++ rest)) := by
      simpa only [List.append_assoc] using ha
    rw [cutFrom_recordBytes hrecord n hfits, hnext, hcut]
    rfl

theorem length_le_framePadded_length (P : Params) (xs : List (AncRecord × Bytes)) :
    xs.length ≤ (framePadded P xs).length := by
  have hpos := ancHdrBytes_pos P
  induction xs with
  | nil => exact Nat.zero_le _
  | cons x xs ih =>
    simp only [framePadded, List.length_append, List.length_cons, recordBytes_length]
    omega

/-- Padded records and fewer bytes than a header after them. -/
theorem cutRecords_framePadded (P : Params) (xs : List (AncRecord × Bytes)) (tail : Bytes)
    (hx : ∀ x ∈ xs, recordFits P x.1 = true ∧ PadsToAlign P (P.ancHdrBytes + x.1.payload.length) x.2)
    (htail : tail.length < P.ancHdrBytes) : cutRecords P (framePadded P xs ++ tail) = some (xs.map Prod.fst) := by
  have hlen := length_le_framePadded_length P xs
  have hend (m : Nat) (hm : 1 ≤ m) :
      cutFrom P (framePadded P xs ++ tail) m ([] ++ framePadded P xs).length = some [] := by
    obtain ⟨m, rfl⟩ : ∃ k, m = k + 1 := ⟨m - 1, by omega⟩
    exact cutFrom_of_no_header m (by simpa using htail)
  have h := cutFrom_framePadded hx [] rfl hend ((framePadded P xs ++ tail).length + 1)
    (by rw [List.length_append]; omega)
  rw [List.append_nil] at h
  exact h

/-- Padded records and one more whose padding is cut off: the rounded-up step passes the end of the buffer. -/
theorem cutRecords_framePadded_cut (P : Params) (xs : List (AncRecord × Bytes)) (last : AncRecord) (cut : Bytes)
    (hx : ∀ x ∈ xs, recordFits P x.1 = true ∧ PadsToAlign P (P.ancHdrBytes + x.1.payload.length) x.2)
    (hlast : recordFits P last = true)
    (hcut : ∀ k ≤ cut.length, ¬ P.ancAlign ∣ P.ancHdrBytes + last.payload.length + k) :
    cutRecords P (framePadded P xs ++ recordBytes P last ++ cut) = some (xs.map Prod.fst ++ [last]) := by
  set a := framePadded P xs ++ recordBytes P last ++ cut with ha
  have hlen := length_le_framePadded_length P xs
  have hpos := ancHdrBytes_pos P
  have halen : a.length = (framePadded P xs).length + (P.ancHdrBytes + last.payload.length) + cut.length := by
    simp only [ha, List.length_append, recordBytes_length]
  have hpast := lt_roundUp (P.ancHdrBytes + last.payload.length) cut.length P.ancAlign P.ancAlign_pos hcut
  have hend (m : Nat) (hm : 2 ≤ m) : cutFrom P a m ([] ++ framePadded P xs).length = some [last] := by
    obtain ⟨m, rfl⟩ : ∃ k, m = k + 2 := ⟨m - 2, by omega⟩
    rw [List.nil_append, cutFrom_recordBytes ha (m + 1) hlast, cutFrom_of_no_header m (by omega)]
    rfl
  exact cutFrom_framePadded hx [] (List.append_assoc ..) hend (a.length + 1) (by omega)

theorem cutRecords_frameRecords (P : Params) (recs : List AncRecord) (h : ∀ r ∈ recs, recordFits P r = true) :
    cutRecords P (frameRecords P recs) = some recs := by
  have hcut := cutRecords_framePadded P
    (recs.map fun r => (r, List.replicate (paddingAfter P (P.ancHdrBytes + r.payload.length)) 0)) []
    (List.forall_mem_map.mpr fun r hr => ⟨h r hr, padsToAlign_replicate P _ 0⟩) (ancHdrBytes_pos P)
  rw [List.append_nil, List.map_map] at hcut
  exact hcut.trans (congrArg some (List.map_id recs))

/-! ### The statements about framing -/

/-- Settles O19 (R109, D16). -/
theorem extractRefusesExactlyIllFramed : Obligations.ExtractRefusesExactlyIllFramed := by
  unfold Obligations.ExtractRefusesExactlyIllFramed
  refine fun a s => ⟨⟨fun href => ?_, fun hill => ?_⟩, fun hwf => ?_⟩
  · rw [← Bool.not_eq_true, ← extractTimestamp_isSome_iff]
    rintro ⟨e, hsome⟩
    rw [exec_extract_of_some hsome] at href
    cases href
  · exact exec_extract_of_none ((extractTimestamp_eq_none_iff _ a).mpr hill)
  · obtain ⟨e, hsome⟩ := (extractTimestamp_isSome_iff _ a).mpr hwf
    exact ⟨timestampResponse e, exec_extract_of_some hsome⟩

/-- Settles O20 (R108, D12). -/
theorem extractRefinesRecordLayer : Obligations.ExtractRefinesRecordLayer := by
  unfold Obligations.ExtractRefinesRecordLayer
  exact fun P a recs hcut => scanFrom_of_cutFrom hcut

/-- Settles O21 (R69, R70, D12). -/
theorem framedRecordsCutBack : Obligations.FramedRecordsCutBack := by
  unfold Obligations.FramedRecordsCutBack
  exact ⟨fun P xs hx => ⟨fun tail htail => cutRecords_framePadded P xs tail hx htail,
    fun last cut hlast hcut => cutRecords_framePadded_cut P xs last cut hx hlast hcut⟩, cutRecords_frameRecords⟩

/-- Settles O25 (R108, D14): the scan of the longer buffer, with more turns to take, stops at the same record. -/
theorem decidedExtractIgnoresTail : Obligations.DecidedExtractIgnoresTail := by
  unfold Obligations.DecidedExtractIgnoresTail
  exact fun P a tail r h hne => scanFrom_append tail h hne _ (by rw [List.length_append]; omega)

end Sys2Proof.Machine

/-! What EXTRACT answers on a buffer said in bytes: records of other tags, and then a record, a header or a trailing fragment
(spec/42_timestamp.md R103 to R109, spec/30_encoding.md R69 to R71). -/

namespace Sys2Proof.Machine

/-! ### The payload decides by its length (R103, R104, D15) -/

theorem rawHardwareEntry_of_short {P : Params} {q : Bytes} (h : q.length < 3 * (P.tsSecBytes + P.tsNsecBytes)) :
    rawHardwareEntry P q = .error .shortRecord :=
  if_pos h

theorem rawHardwareEntry_of_long {P : Params} {q : Bytes} (h : 3 * (P.tsSecBytes + P.tsNsecBytes) ≤ q.length) :
    rawHardwareEntry P q = .ok (readEntry P q tsSelect) :=
  if_neg (Nat.not_lt.mpr h)

theorem rawHardwareEntry_eq_shortRecord_iff (P : Params) (q : Bytes) :
    rawHardwareEntry P q = .error .shortRecord ↔ q.length < 3 * (P.tsSecBytes + P.tsNsecBytes) := by
  refine ⟨fun h => ?_, rawHardwareEntry_of_short⟩
  by_contra hlong
  rw [rawHardwareEntry_of_long (Nat.le_of_not_lt hlong)] at h
  cases h

/-- R106: after records of other tags the first timestamping record decides. -/
theorem selectTimestamp_append_of_not_tag (P : Params) (before rs : List AncRecord)
    (h : ∀ x ∈ before, ¬ (x.level = P.tsLevel ∧ x.type = P.tsType)) :
    selectTimestamp P (before ++ rs) = selectTimestamp P rs := by
  induction before with
  | nil => rfl
  | cons x xs ih =>
    obtain ⟨hx, hxs⟩ := List.forall_mem_cons.mp h
    rw [List.cons_append, selectTimestamp_cons_of_not_tag P x _ hx, ih hxs]

/-! ### A tagged record after records of other tags (R106, D14) -/

theorem extractTimestamp_framePadded_tagged (P : Params) (before : List (AncRecord × Bytes)) (r : AncRecord) (tail : Bytes)
    (hbefore : OtherRecords P before) (hfits : recordFits P r = true) (htag : r.level = P.tsLevel ∧ r.type = P.tsType) :
    extractTimestamp P (framePadded P before ++ recordBytes P r ++ tail) = some (rawHardwareEntry P r.payload) := by
  have hread := readHeader_recordBytes P (framePadded P before) tail r hfits
  have hdr : (framePadded P before).length + P.ancHdrBytes ≤ (framePadded P before ++ recordBytes P r ++ tail).length := by
    simp only [List.length_append, recordBytes_length]
    omega
  have hscan := extractTimestamp_framePadded P before hbefore (recordBytes P r ++ tail)
  rw [← List.append_assoc] at hscan
  rw [hscan, scanFrom_of_tag _ hdr (headerWellFramed_recordBytes P _ tail r hfits) (by rwa [hread]),
    readPayload_recordBytes P _ tail r hfits]

/-- The cutting gives records of other tags only (R105). -/
theorem extractTimestamp_of_cutRecords_other {P : Params} {a : Bytes} {recs : List AncRecord}
    (hcut : cutRecords P a = some recs) (h : ∀ r ∈ recs, ¬ (r.level = P.tsLevel ∧ r.type = P.tsType)) :
    extractTimestamp P a = some (.error .missing) := by
  have hscan : extractTimestamp P a = some (selectTimestamp P recs) := scanFrom_of_cutFrom hcut
  rw [hscan, (selectTimestamp_eq_missing_iff P recs).mpr h]

/-! ### A header said as its length word and the bytes after it (R69, R70) -/

/-- A read counted from the end of the first part of a concatenation. -/
theorem memRead_append_add (pre b : Bytes) (off n : Nat) : memRead (pre ++ b) (pre.length + off) n = memRead b off n := by
  rw [memRead_append_right _ _ _ _ (Nat.le_add_right _ _), Nat.add_sub_cancel_left]

/-- A read inside what was read. -/
theorem memRead_memRead (b : Bytes) (off m off' n : Nat) (h : off' + n ≤ m) :
    memRead (memRead b off m) off' n = memRead b (off + off') n := by
  unfold memRead
  rw [List.drop_take, List.take_take, List.drop_drop, Nat.min_eq_left (by omega)]

/-- The third entry of a payload that holds three, in the bytes the payload was read from (R71). -/
theorem readEntry_tsSelect_memRead (P : Params) (b : Bytes) (off m : Nat) (h : 3 * (P.tsSecBytes + P.tsNsecBytes) ≤ m) :
    readEntry P (memRead b off m) tsSelect
      = { seconds := readSigned P b (off + 2 * (P.tsSecBytes + P.tsNsecBytes)) P.tsSecBytes
          nanoseconds := readSigned P b (off + 2 * (P.tsSecBytes + P.tsNsecBytes) + P.tsSecBytes) P.tsNsecBytes } := by
  unfold readEntry readSigned Params.tsEntryBytes tsSelect
  rw [memRead_memRead _ _ _ _ _ (by omega), memRead_memRead _ _ _ _ _ (by omega), Nat.add_assoc off]

/-- The payload a length word `lenBytes` gives, in the bytes after it: past the header's two tag words. -/
def payloadAfter (P : Params) (lenBytes rest : Bytes) : Bytes :=
  memRead rest (P.ancLevelBytes + P.ancTypeBytes) (fromOrd P.ancOrder lenBytes - P.ancHdrBytes)

section
variable {P : Params} {lenBytes : Bytes} (pre rest : Bytes) (hlen : lenBytes.length = P.ancLenBytes)
include hlen

theorem readHeader_lenBytes :
    readHeader P (pre ++ lenBytes ++ rest) pre.length
      = { len := fromOrd P.ancOrder lenBytes, level := readSigned P rest 0 P.ancLevelBytes
          type := readSigned P rest P.ancLevelBytes P.ancTypeBytes } := by
  have hword : memRead (pre ++ lenBytes ++ rest) pre.length P.ancLenBytes = lenBytes :=
    memRead_middle pre lenBytes rest _ _ rfl hlen.symm
  have hafter (off n : Nat) :
      memRead (pre ++ lenBytes ++ rest) (pre.length + P.ancLenBytes + off) n = memRead rest off n := by
    rw [← memRead_append_add (pre ++ lenBytes) rest off n, List.length_append, hlen]
  have hlevel := hafter 0 P.ancLevelBytes
  rw [Nat.add_zero] at hlevel
  simp only [readHeader, readSigned, hword, hlevel, hafter]

theorem readPayload_lenBytes :
    readPayload P (pre ++ lenBytes ++ rest) pre.length = payloadAfter P lenBytes rest := by
  rw [readPayload, readHeader_lenBytes pre rest hlen, payloadAfter, ← memRead_append_add (pre ++ lenBytes) rest,
    List.length_append, hlen, Params.ancHdrBytes]
  simp only [Nat.add_assoc]

theorem headerWellFramed_lenBytes_iff :
    headerWellFramed P (pre ++ lenBytes ++ rest) pre.length = true
      ↔ P.ancHdrBytes ≤ fromOrd P.ancOrder lenBytes ∧ fromOrd P.ancOrder lenBytes ≤ lenBytes.length + rest.length := by
  rw [headerWellFramed_iff, readHeader_lenBytes pre rest hlen, List.append_assoc, List.length_append,
    Nat.add_sub_cancel_left, List.length_append]

end

/-- Where the record at `p` is of another tag and fewer bytes than a header follow it, nothing is found from `p` on. -/
theorem scanFrom_of_last_not_tag {P : Params} {a : Bytes} {p : Nat} (hdr : p + P.ancHdrBytes ≤ a.length)
    (hwf : headerWellFramed P a p = true)
    (htag : ¬ ((readHeader P a p).level = P.tsLevel ∧ (readHeader P a p).type = P.tsType))
    (hlast : a.length < p + (readHeader P a p).len + P.ancHdrBytes) :
    scanFrom P a (a.length + 1) p = some (.error .missing) := by
  have hpos := ancHdrBytes_pos P
  obtain ⟨hround, -, -⟩ := roundUp_spec (readHeader P a p).len P.ancAlign P.ancAlign_pos
  obtain ⟨n, hn⟩ : ∃ n, a.length = n + 1 := ⟨a.length - 1, by omega⟩
  rw [scanFrom_of_not_tag _ hdr hwf htag, hn]
  exact scanFrom_of_no_header n (by rw [nextRecord]; omega)

section
variable {P : Params} {before : List (AncRecord × Bytes)} {lenBytes rest : Bytes}

theorem payloadAfter_length (hlen : lenBytes.length = P.ancLenBytes)
    (hhi : fromOrd P.ancOrder lenBytes ≤ lenBytes.length + rest.length) :
    (payloadAfter P lenBytes rest).length = fromOrd P.ancOrder lenBytes - P.ancHdrBytes := by
  rw [payloadAfter, memRead_length, Params.ancHdrBytes]
  omega

variable (hbefore : OtherRecords P before) (hlen : lenBytes.length = P.ancLenBytes)
  (hrest : P.ancLevelBytes + P.ancTypeBytes ≤ rest.length)

include hbefore in
theorem extractTimestamp_lenBytes :
    extractTimestamp P (framePadded P before ++ lenBytes ++ rest)
      = scanFrom P (framePadded P before ++ lenBytes ++ rest) ((framePadded P before ++ lenBytes ++ rest).length + 1)
          (framePadded P before).length := by
  rw [List.append_assoc]
  exact extractTimestamp_framePadded P before hbefore (lenBytes ++ rest)

include hlen hrest in
theorem header_le_length_lenBytes (pre : Bytes) : pre.length + P.ancHdrBytes ≤ (pre ++ lenBytes ++ rest).length := by
  simp only [List.length_append, Params.ancHdrBytes]
  omega

include hbefore hlen hrest

/-- D16: a length word outside its bounds. -/
theorem extractTimestamp_lenBytes_outside
    (h : ¬ (P.ancHdrBytes ≤ fromOrd P.ancOrder lenBytes ∧ fromOrd P.ancOrder lenBytes ≤ lenBytes.length + rest.length)) :
    extractTimestamp P (framePadded P before ++ lenBytes ++ rest) = none := by
  rw [← headerWellFramed_lenBytes_iff (framePadded P before) rest hlen, Bool.not_eq_true] at h
  rw [extractTimestamp_lenBytes hbefore, scanFrom_of_illFramed _ (header_le_length_lenBytes hlen hrest _) h]

variable (hlo : P.ancHdrBytes ≤ fromOrd P.ancOrder lenBytes)
  (hhi : fromOrd P.ancOrder lenBytes ≤ lenBytes.length + rest.length)
include hlo hhi

/-- R106: a header with the tag decides by its payload. -/
theorem extractTimestamp_lenBytes_tagged
    (htag : readSigned P rest 0 P.ancLevelBytes = P.tsLevel ∧ readSigned P rest P.ancLevelBytes P.ancTypeBytes = P.tsType) :
    extractTimestamp P (framePadded P before ++ lenBytes ++ rest)
      = some (rawHardwareEntry P (payloadAfter P lenBytes rest)) := by
  have hwf := (headerWellFramed_lenBytes_iff (framePadded P before) rest hlen).mpr ⟨hlo, hhi⟩
  rw [extractTimestamp_lenBytes hbefore, scanFrom_of_tag _ (header_le_length_lenBytes hlen hrest _) hwf
    (by rwa [readHeader_lenBytes _ rest hlen]), readPayload_lenBytes _ rest hlen]

/-- R105: a header of another tag with no room for a further one. -/
theorem extractTimestamp_lenBytes_other
    (htag : ¬ (readSigned P rest 0 P.ancLevelBytes = P.tsLevel
      ∧ readSigned P rest P.ancLevelBytes P.ancTypeBytes = P.tsType))
    (hlast : lenBytes.length + rest.length < fromOrd P.ancOrder lenBytes + P.ancHdrBytes) :
    extractTimestamp P (framePadded P before ++ lenBytes ++ rest) = some (.error .missing) := by
  have hwf := (headerWellFramed_lenBytes_iff (framePadded P before) rest hlen).mpr ⟨hlo, hhi⟩
  have hread := readHeader_lenBytes (framePadded P before) rest hlen
  rw [extractTimestamp_lenBytes hbefore]
  refine scanFrom_of_last_not_tag (header_le_length_lenBytes hlen hrest _) hwf (by rwa [hread]) ?_
  rw [hread]
  simp only [List.append_assoc, List.length_append]
  omega

end

/-! ### The statements -/

/-- Settles O16 (R104, D12 to D15): the tagged record's payload decides, and it is long. -/
theorem extractAnswersThirdEntry : Obligations.ExtractAnswersThirdEntry := by
  unfold Obligations.ExtractAnswersThirdEntry
  intro s before r tail hbefore hfits hlevel htype hlong
  have hext := extractTimestamp_framePadded_tagged s.params before r tail hbefore hfits ⟨hlevel, htype⟩
  rw [rawHardwareEntry_of_long hlong] at hext
  exact exec_extract_of_some hext

/-- Settles O17 (R103, D12 to D14): the tagged record's payload decides, and it is short. -/
theorem extractAnswersShortRecord : Obligations.ExtractAnswersShortRecord := by
  unfold Obligations.ExtractAnswersShortRecord
  intro s before r tail hbefore hfits hlevel htype hshort
  have hext := extractTimestamp_framePadded_tagged s.params before r tail hbefore hfits ⟨hlevel, htype⟩
  rw [rawHardwareEntry_of_short hshort] at hext
  exact exec_extract_of_some hext

/-- Settles O18 (R105, D12, D16): both buffers cut into records of other tags. -/
theorem extractAnswersMissing : Obligations.ExtractAnswersMissing := by
  unfold Obligations.ExtractAnswersMissing
  intro s xs hxs
  have hframed : ∀ x ∈ xs, recordFits s.params x.1 = true
      ∧ PadsToAlign s.params (s.params.ancHdrBytes + x.1.payload.length) x.2 := fun x hx =>
    have ⟨hfits, _, hpad⟩ := hxs x hx
    ⟨hfits, hpad⟩
  have hother : ∀ r ∈ xs.map Prod.fst, ¬ (r.level = s.params.tsLevel ∧ r.type = s.params.tsType) :=
    List.forall_mem_map.mpr fun x hx =>
      have ⟨_, htag, _⟩ := hxs x hx
      htag
  refine ⟨fun tail htail => ?_, fun last cut hlast hltag hcut => ?_⟩
  · exact exec_extract_of_some
      (extractTimestamp_of_cutRecords_other (cutRecords_framePadded s.params xs tail hframed htail) hother)
  · refine exec_extract_of_some
      (extractTimestamp_of_cutRecords_other (cutRecords_framePadded_cut s.params xs last cut hframed hlast hcut) ?_)
    exact List.forall_mem_append.mpr ⟨hother, List.forall_mem_singleton.mpr hltag⟩

/-- Settles O23 (R103, D15): the records before the tagged one are passed over, and its payload decides. -/
theorem shortRecordExactlyWhenShort : Obligations.ShortRecordExactlyWhenShort := by
  unfold Obligations.ShortRecordExactlyWhenShort
  intro P before after r hother hlevel htype
  rw [selectTimestamp_append_of_not_tag P before _ (List.forall_mem_append.mp hother).1,
    selectTimestamp_cons_of_tag P r after ⟨hlevel, htype⟩, rawHardwareEntry_eq_shortRecord_iff]

/-- Settles O26 (V30, V31): a buffer of one tagged record, whose payload decides. -/
theorem sourceTimestampExamples : Obligations.SourceTimestampExamples := by
  unfold Obligations.SourceTimestampExamples
  have hext (payload : Bytes) (hfits : recordFits Params.default ⟨1, 37, payload⟩ = true) :
      extractTimestamp Params.default (recordBytes Params.default ⟨1, 37, payload⟩)
        = some (rawHardwareEntry Params.default payload) := by
    simpa [framePadded] using
      extractTimestamp_framePadded_tagged Params.default [] ⟨1, 37, payload⟩ [] (by simp) hfits ⟨rfl, rfl⟩
  constructor
  · rw [hext _ (by decide)]
    decide
  · rw [hext _ (by decide)]
    decide

/-- Settles O51 (R69, R70, R105, D12 to D16): one turn of the scan at the header, by what its words say. -/
theorem extractLengthWordBounds : Obligations.ExtractLengthWordBounds := by
  unfold Obligations.ExtractLengthWordBounds
  rintro s before lenBytes rest hdr len remaining level type hbefore hlen hrest hhdr rfl rfl rfl rfl
  obtain rfl : hdr = s.params.ancHdrBytes := hhdr
  refine ⟨fun hout => ?_, fun hlo hhi hlevel htype hshort => ?_, fun hlo hhi hlevel htype hlong => ?_,
    fun hlo hhi htag hlast => ?_⟩
  · exact exec_extract_of_none (extractTimestamp_lenBytes_outside hbefore hlen hrest (by omega))
  · have hext := extractTimestamp_lenBytes_tagged hbefore hlen hrest hlo hhi ⟨hlevel, htype⟩
    rw [rawHardwareEntry_of_short (by rwa [payloadAfter_length hlen hhi])] at hext
    exact exec_extract_of_some hext
  · have hext := extractTimestamp_lenBytes_tagged hbefore hlen hrest hlo hhi ⟨hlevel, htype⟩
    rw [rawHardwareEntry_of_long (by rwa [payloadAfter_length hlen hhi]), payloadAfter,
      readEntry_tsSelect_memRead s.params rest _ _ hlong] at hext
    exact ⟨_, exec_extract_of_some hext, rfl, rfl⟩
  · exact exec_extract_of_some (extractTimestamp_lenBytes_other hbefore hlen hrest hlo hhi htag hlast)

end Sys2Proof.Machine

/-! Requests and single steps: the two directions of the request codec (spec/30_encoding.md R65 to R68), and what a step does
for each transaction in progress and each host action (spec/20_memory.md R39, R40, spec/70_reset_and_hazards.md R140, R141). -/

namespace Sys2Proof.Machine

/-! ### The request codec (R65, R67, R68) -/

theorem opOfCode_eq_ok_iff (code : BitVec 3) (op : Op) : opOfCode code = .ok op ↔ codeOfOp op = code := by
  cases op <;> revert code <;> decide

theorem opOfCode_of_reserved (code : BitVec 3) (h : 5 ≤ code.toNat) :
    opOfCode code = .error (.reservedOperation code) := by
  revert code
  decide

theorem instrOf_op_operands (i : Instr) : instrOf i.op i.operands = .ok i := by
  cases i <;> rfl

/-- Operands of the operation's type, and no others, make an instruction (R23). -/
theorem instrOf_eq_ok_iff (op : Op) (operands : Operands) (i : Instr) :
    instrOf op operands = .ok i ↔ i.op = op ∧ i.operands = operands := by
  refine ⟨fun h => ?_, ?_⟩
  · unfold instrOf at h
    split at h <;> cases h <;> exact ⟨rfl, rfl⟩
  · rintro ⟨rfl, rfl⟩
    exact instrOf_op_operands i

/-- A request stands for the one instruction that it encodes. -/
theorem decodeRequest_eq_ok_iff (q : Request) (i : Instr) : decodeRequest q = .ok i ↔ encodeRequest i = q := by
  obtain ⟨code, operands⟩ := q
  rw [decodeRequest, encodeRequest, Request.mk.injEq, ← opOfCode_eq_ok_iff]
  cases opOfCode code with
  | error e => simp
  | ok op => simp only [Except.ok.injEq, instrOf_eq_ok_iff, @eq_comm _ op]

@[simp] theorem decodeRequest_encodeRequest (i : Instr) : decodeRequest (encodeRequest i) = .ok i :=
  (decodeRequest_eq_ok_iff _ i).mpr rfl

theorem decodeRequest_of_reserved (q : Request) (h : 5 ≤ q.op.toNat) :
    decodeRequest q = .error (.reservedOperation q.op) := by
  rw [decodeRequest, opOfCode_of_reserved q.op h]

/-! ### Serving a request (R39, S13) -/

theorem serve_of_error {q : Request} {why : RequestReject} (s : State) (h : decodeRequest q = .error why) :
    serve q s = .refused (.noInstruction why) := by
  rw [serve, h]

theorem serve_of_illFormed {q : Request} {i : Instr} {why : IllFormed} {s : State} (h : decodeRequest q = .ok i)
    (hill : i.illFormed s.params = some why) : serve q s = .refused (.notPresentable why) := by
  simp only [serve, h, hill]

theorem serve_of_wellFormed {q : Request} {i : Instr} {s : State} (h : decodeRequest q = .ok i)
    (hwf : i.WellFormed s.params) : serve q s = exec i s := by
  simp only [serve, h, hwf]

theorem withinMax_of_lt {m n : Nat} (h : m < n) : withinMax (some m) n = false :=
  decide_eq_false (Nat.not_le.mpr h)

theorem illFormed_decode_of_lt {P : Params} {b : Bytes} {m : Nat} (hmax : P.rxMax = some m) (h : m < b.length) :
    (Instr.decode b).illFormed P = some .overRxMax := by
  rw [Instr.illFormed, hmax, withinMax_of_lt h]
  rfl

theorem illFormed_extract_of_lt {P : Params} {a : Bytes} {m : Nat} (hmax : P.ancMax = some m) (h : m < a.length) :
    (Instr.extract a).illFormed P = some .overAncMax := by
  rw [Instr.illFormed, hmax, withinMax_of_lt h]
  rfl

/-! ### The step by the host's next action (R40, R140, R141, R143) -/

theorem State.passWait_of_wait {s : State} {rest : List HostAction} (h : s.host = .wait :: rest) :
    s.passWait = { s with host := rest } := by
  rw [State.passWait, h]

theorem State.passWait_of_head_ne_wait {s : State} (h : s.host.head? ≠ some .wait) : s.passWait = s := by
  rcases s.passWait_host with ⟨rest, hhost, -⟩ | ⟨-, heq⟩
  · exact absurd (by rw [hhost, List.head?_cons]) h
  · exact heq

/-- A reset wins over everything (R140, R141). -/
theorem step_of_reset {s : State} {rest : List HostAction} (h : s.host = .reset :: rest) :
    step s = .next { s with inProgress := none, host := rest } := by
  simp only [step, State.takeReset, h, List.tail_cons]

theorem step_of_idle_request {s : State} {q : Request} {rest : List HostAction} (hidle : s.inProgress = none)
    (h : s.host = .request q :: rest) : step s = .next { s with inProgress := some q, host := rest } := by
  simp only [step, State.accept, h, hidle, List.tail_cons]

theorem step_of_idle_wait {s : State} {rest : List HostAction} (hidle : s.inProgress = none) (h : s.host = .wait :: rest) :
    step s = .next { s with host := rest } := by
  simp only [step, h, hidle, State.passWait_of_wait h]

theorem step_of_idle_nil {s : State} (hidle : s.inProgress = none) (h : s.host = []) : step s = .next s := by
  simp only [step, h, hidle, State.passWait]

/-- With no reset arriving, the transaction in progress is given its instruction's response (R39). -/
theorem step_of_response {s : State} {q : Request} {i : Instr} {r : Response} (hq : s.inProgress = some q)
    (hreset : s.host.head? ≠ some .reset) (hdec : decodeRequest q = .ok i) (hwf : i.WellFormed s.params)
    (hresp : responseTo s.params i = some r) : step s = .next (s.passWait.respond r) := by
  rw [step_inProgress s q hq hreset, serve_eq_next]
  exact ⟨i, r, hdec, by rwa [State.passWait_params], by rwa [State.passWait_params], rfl⟩

/-- A step is a run of one step. -/
theorem core_run_one {s t : State} (h : step s = .next t) : Sys2Proof.core.run 1 s = .next t :=
  core_run_succ s t 0 h

/-! ### The statements -/

/-- Settles O32 (R65, R67, D1, D3). -/
theorem requestCodecAgrees : Obligations.RequestCodecAgrees := by
  unfold Obligations.RequestCodecAgrees
  exact ⟨decodeRequest_encodeRequest, fun q i h => (decodeRequest_eq_ok_iff q i).mp h⟩

/-- Settles O31 (R65, D3). -/
theorem tableWordsDecode : Obligations.TableWordsDecode := by
  unfold Obligations.TableWordsDecode
  exact ⟨rfl, rfl, rfl, rfl, rfl⟩

/-- Settles O33 (R68, D3). -/
theorem reservedCodesRefused : Obligations.ReservedCodesRefused := by
  unfold Obligations.ReservedCodesRefused
  intro s q hq hreset hcode
  rw [step_inProgress s q hq hreset, serve_of_error _ (decodeRequest_of_reserved q hcode)]

/-- Settles O34 (S13, D9, D12). -/
theorem overlongOperandsRefused : Obligations.OverlongOperandsRefused := by
  unfold Obligations.OverlongOperandsRefused
  refine ⟨fun s b m hq hreset hmax hlt => ?_, fun s a m hq hreset hmax hlt => ?_⟩
  · rw [step_inProgress s _ hq hreset]
    exact serve_of_illFormed (decodeRequest_encodeRequest _)
      (illFormed_decode_of_lt (by rwa [State.passWait_params]) hlt)
  · rw [step_inProgress s _ hq hreset]
    exact serve_of_illFormed (decodeRequest_encodeRequest _)
      (illFormed_extract_of_lt (by rwa [State.passWait_params]) hlt)

/-- Settles O35 (R39, R143). -/
theorem stepRunsTheDecodedInstruction : Obligations.StepRunsTheDecodedInstruction := by
  unfold Obligations.StepRunsTheDecodedInstruction
  intro s q i hq hdec hwf
  have hserve (hreset : s.host.head? ≠ some .reset) : step s = exec i s.passWait := by
    rw [step_inProgress s q hq hreset, serve_of_wellFormed hdec (by rwa [State.passWait_params])]
  refine ⟨fun rest hhost => ?_, fun hwait hreset => ?_⟩
  · rw [hserve (by simp [hhost]), State.passWait_of_wait hhost]
  · rw [hserve hreset, State.passWait_of_head_ne_wait hwait]

/-- Settles O36 (R40). -/
theorem idleBlockTakesRequests : Obligations.IdleBlockTakesRequests := by
  unfold Obligations.IdleBlockTakesRequests
  exact fun s hidle => ⟨fun q rest => step_of_idle_request hidle, fun rest => step_of_idle_wait hidle,
    step_of_idle_nil hidle⟩

/-- Settles O37 (R140, R141, D19). -/
theorem resetAbandonsTransaction : Obligations.ResetAbandonsTransaction := by
  unfold Obligations.ResetAbandonsTransaction
  exact fun s rest => step_of_reset

/-- Settles O38 (R141, D19): reset, take the request again, serve it; the response is the one its instruction has under the
parameters. -/
theorem requestRepeatedAfterReset : Obligations.RequestRepeatedAfterReset := by
  unfold Obligations.RequestRepeatedAfterReset
  intro s t q rest hq hreset hserve
  obtain ⟨i, r, hdec, hwf, hresp, rfl⟩ := (serve_eq_next q s t).mp hserve
  have hserved := step_of_response (s := { s with inProgress := some q, host := rest }) rfl hreset hdec hwf hresp
  have htaken := core_run_succ { s with inProgress := none, host := .request q :: rest } _ 1 (step_of_idle_request rfl rfl)
  have hrun := (core_run_succ { s with host := .reset :: .request q :: rest } _ 2 (step_of_reset rfl)).trans
    (htaken.trans (core_run_one hserved))
  refine ⟨_, hrun, ?_, rfl⟩
  rw [State.respond_responses, State.passWait_responses, State.respond_responses]

end Sys2Proof.Machine

/-! The machine as a whole: what every instruction and every step keeps, which requests are served, and what a run of a dutiful
host comes to (spec/10_state.md sections 1, 2, spec/20_memory.md sections 4, 5, spec/70_reset_and_hazards.md). -/

namespace Sys2Proof.Machine

/-! ### Responses (R20 to R23, R81, R85, R87) -/

theorem responses_of_respond_eq {s : State} {r r' : Response}
    (h : s.respond r = { s with responses := s.responses ++ [r'], inProgress := none }) : r = r' :=
  List.singleton_inj.mp (List.append_cancel_left (congrArg State.responses h))

/-- A signed word read from a buffer is in the range of its width. -/
theorem signedOfBytes_readSigned (P : Params) (b : Bytes) (off n : Nat) (hn : 0 < n) :
    signedOfBytes n (readSigned P b off n) := by
  have hlt : fromOrd P.ancOrder (memRead b off n) < 2 ^ (8 * n) :=
    calc fromOrd P.ancOrder (memRead b off n)
        < 256 ^ (memRead b off n).length := fromOrd_lt ..
      _ ≤ 256 ^ n := Nat.pow_le_pow_right (by decide) (memRead_length_le b off n)
      _ = 2 ^ (8 * n) := by rw [Nat.pow_mul]
  exact asSigned_range (8 * n) _ (by omega) hlt

/-- R20: the members of a timestamp are in the range of their widths. -/
theorem responseShape_timestampResponse {P : Params} {a : Bytes} {e : Except TimestampError HardwareTimestamp}
    (h : extractTimestamp P a = some e) : responseShape P (timestampResponse e) := by
  cases e with
  | error e => trivial
  | ok t =>
    rcases scanFrom_eq_some h with hmissing | ⟨q, hraw⟩
    · cases hmissing
    · rw [rawHardwareEntry_eq_ok hraw.symm]
      exact ⟨signedOfBytes_readSigned P q _ _ P.tsSecBytes_pos, signedOfBytes_readSigned P q _ _ P.tsNsecBytes_pos⟩

/-- Every response has its kind's shape. -/
theorem responseShape_of_responseTo {P : Params} {i : Instr} {r : Response} (h : responseTo P i = some r) :
    responseShape P r := by
  cases i with
  | derive mac =>
    cases h
    exact ⟨insertFFFE_getElem_three mac, insertFFFE_getElem_four mac⟩
  | encode f =>
    cases h
    exact ⟨encodeFrame_length f, memRead_encodeFrame_etherType f⟩
  | decode b =>
    simp only [responseTo] at h
    cases hdec : decodeFrame b <;> rw [hdec] at h <;> cases h <;> trivial
  | extract a =>
    rw [responseTo_extract] at h
    obtain ⟨e, hext, rfl⟩ := Option.map_eq_some_iff.mp h
    exact responseShape_timestampResponse hext
  | buildSync source sequenceId =>
    cases h
    trivial

/-- Each error comes from its own operation (R125). -/
theorem responseTo_eq_error {P : Params} {i : Instr} {e : OpError} (h : responseTo P i = some (.error e)) :
    (∃ b, i = .decode b ∧ b.length ≠ 58 ∧ e = .decode .sizeMismatch)
      ∨ (∃ a, i = .extract a ∧ wellFramed P a = true ∧ (e = .timestamp .shortRecord ∨ e = .timestamp .missing)) := by
  cases i with
  | derive mac => cases h
  | encode f => cases h
  | decode b =>
    simp only [responseTo] at h
    cases hdec : decodeFrame b with
    | ok f => rw [hdec] at h; cases h
    | error e' =>
      rw [hdec] at h
      cases h
      cases e'
      exact .inl ⟨b, rfl, (decodeFrame_error_iff b _).mp hdec, rfl⟩
  | extract a =>
    rw [responseTo_extract] at h
    obtain ⟨e', hext, hresp⟩ := Option.map_eq_some_iff.mp h
    refine .inr ⟨a, rfl, (extractTimestamp_isSome_iff P a).mp ⟨e', hext⟩, ?_⟩
    rcases e' with (_ | _) | t <;> cases hresp
    · exact .inl rfl
    · exact .inr rfl
  | buildSync source sequenceId => cases h

/-! ### Requests that are served (R143, logs 9, 10) -/

/-- EXTRACT of an ill-framed buffer is the one instruction without a response (R109). -/
theorem responseTo_isSome_iff (P : Params) (i : Instr) :
    (∃ r, responseTo P i = some r) ↔ ∀ a, i = .extract a → wellFramed P a = true := by
  cases i with
  | derive mac => exact iff_of_true ⟨_, rfl⟩ (fun _ h => nomatch h)
  | encode f => exact iff_of_true ⟨_, rfl⟩ (fun _ h => nomatch h)
  | decode b =>
    refine iff_of_true ?_ (fun _ h => nomatch h)
    simp only [responseTo]
    cases decodeFrame b <;> exact ⟨_, rfl⟩
  | extract a =>
    rw [responseTo_extract]
    refine ⟨?_, fun h => ?_⟩
    · rintro ⟨r, hr⟩ _ ⟨⟩
      obtain ⟨e, hext, -⟩ := Option.map_eq_some_iff.mp hr
      exact (extractTimestamp_isSome_iff P a).mp ⟨e, hext⟩
    · obtain ⟨e, hext⟩ := (extractTimestamp_isSome_iff P a).mpr (h a rfl)
      exact ⟨timestampResponse e, by rw [hext]; rfl⟩
  | buildSync source sequenceId => exact iff_of_true ⟨_, rfl⟩ (fun _ h => nomatch h)

/-- A request is served when it stands for an instruction that can be presented and has a response. -/
theorem requestServed_iff (P : Params) (q : Request) :
    requestServed P q = true
      ↔ ∃ i r, decodeRequest q = .ok i ∧ i.WellFormed P ∧ responseTo P i = some r := by
  unfold requestServed
  cases hdec : decodeRequest q with
  | error e => simp
  | ok i =>
    simp only [Except.ok.injEq, exists_and_left, exists_eq_left', Bool.and_eq_true, Option.isNone_iff_eq_none,
      responseTo_isSome_iff]
    refine and_congr_right fun _ => ?_
    cases i <;> simp

theorem serve_of_served {q : Request} {s : State} (h : requestServed s.params q = true) :
    ∃ r, serve q s = .next (s.respond r) := by
  obtain ⟨i, r, hdec, hwf, hresp⟩ := (requestServed_iff s.params q).mp h
  exact ⟨r, (serve_eq_next q s _).mpr ⟨i, r, hdec, hwf, hresp, rfl⟩⟩

theorem requestServed_of_serve {q : Request} {s t : State} (h : serve q s = .next t) :
    requestServed s.params q = true := by
  obtain ⟨i, r, hdec, hwf, hresp, -⟩ := (serve_eq_next q s t).mp h
  exact (requestServed_iff s.params q).mpr ⟨i, r, hdec, hwf, hresp⟩

/-- The block never faults: an outcome that is no next state is a refusal (log 22). -/
theorem exists_refused_iff {o : Host.Outcome State Fault Refusal} : (∃ r, o = .refused r) ↔ ∀ t, o ≠ .next t := by
  cases o with
  | next t => simp
  | fault f => cases f
  | refused r => simp

theorem serve_refused_iff (q : Request) (s : State) :
    (∃ r, serve q s = .refused r) ↔ requestServed s.params q = false := by
  rw [exists_refused_iff, ← Bool.not_eq_true]
  refine ⟨fun hne hserved => ?_, fun hnot t hserve => hnot (requestServed_of_serve hserve)⟩
  obtain ⟨r, hserve⟩ := serve_of_served hserved
  exact hne _ hserve

/-- An idle block never refuses. -/
theorem exists_step_of_idle {s : State} (hidle : s.inProgress = none) : ∃ t, step s = .next t := by
  cases hhost : s.host with
  | nil => exact ⟨_, step_of_idle_nil hidle hhost⟩
  | cons action rest =>
    cases action with
    | request q => exact ⟨_, step_of_idle_request hidle hhost⟩
    | reset => exact ⟨_, step_of_reset hhost⟩
    | wait => exact ⟨_, step_of_idle_wait hidle hhost⟩

theorem step_refused_iff (s : State) :
    (∃ r, step s = .refused r)
      ↔ (∃ q, s.inProgress = some q ∧ requestServed s.params q = false) ∧ s.host.head? ≠ some .reset := by
  by_cases hreset : s.host.head? = some .reset
  · obtain ⟨rest, hhost⟩ := List.head?_eq_some_iff.mp hreset
    simp [step_of_reset hhost, hreset]
  · cases hq : s.inProgress with
    | none =>
      obtain ⟨t, hstep⟩ := exists_step_of_idle hq
      simp [hstep]
    | some q =>
      rw [step_inProgress s q hq hreset, serve_refused_iff, State.passWait_params]
      simp [hreset]

/-! ### What a step keeps -/

/-- A step keeps the parameters, and gives the response of the transaction in progress or none (R39, R24). -/
theorem step_responses {s t : State} (h : step s = .next t) :
    t.params = s.params
      ∧ (t.responses = s.responses
        ∨ ∃ q i r, s.inProgress = some q ∧ t.inProgress = none ∧ responseTo s.params i = some r
          ∧ t.responses = s.responses ++ [r]) := by
  obtain ⟨-, rfl⟩ | ⟨-, q, hq, hserve⟩ | ⟨-, q, -, rfl⟩ | ⟨-, -, rfl⟩ := step_cases h
  · exact ⟨rfl, .inl rfl⟩
  · obtain ⟨i, r, -, -, hresp, rfl⟩ := (serve_eq_next q _ t).mp hserve
    rw [State.passWait_params] at hresp
    refine ⟨by simp, .inr ⟨q, i, r, hq, rfl, hresp, by simp⟩⟩
  · exact ⟨rfl, .inl rfl⟩
  · exact ⟨by simp, .inl (by simp)⟩

/-- A step leaves the later host actions, and may take the next one as the transaction in progress. -/
theorem step_host {s t : State} (h : step s = .next t) :
    (∀ a ∈ t.host, a ∈ s.host) ∧ ∀ q, t.inProgress = some q → s.inProgress = some q ∨ .request q ∈ s.host := by
  obtain ⟨-, rfl⟩ | ⟨-, q, hq, hserve⟩ | ⟨-, q, hhead, rfl⟩ | ⟨hidle, -, rfl⟩ := step_cases h
  · exact ⟨fun a ha => List.mem_of_mem_tail ha, fun q hq => nomatch hq⟩
  · obtain ⟨i, r, -, -, -, rfl⟩ := (serve_eq_next q _ t).mp hserve
    exact ⟨s.passWait_host_subset, fun q hq => nomatch hq⟩
  · refine ⟨fun a ha => List.mem_of_mem_tail ha, fun q' hq' => .inr ?_⟩
    cases hq'
    exact List.mem_of_head? hhead
  · exact ⟨s.passWait_host_subset, fun q hq => .inl (by rwa [State.passWait_inProgress] at hq)⟩

theorem hostKeepsDuties_of_step {s t : State} (hs : HostKeepsDuties s) (h : step s = .next t) : HostKeepsDuties t := by
  obtain ⟨hprogress, hhost⟩ := hs
  obtain ⟨hparams, -⟩ := step_responses h
  obtain ⟨hsub, htaken⟩ := step_host h
  unfold HostKeepsDuties
  rw [hparams]
  refine ⟨fun q hq => ?_, fun a ha => hhost a (hsub a ha)⟩
  rcases htaken q hq with hq | hmem
  · exact hprogress q hq
  · exact hhost _ hmem

/-- A dutiful host's step gives a next state, since a refusal takes a broken duty. -/
theorem exists_step_of_hostKeepsDuties {s : State} (hs : HostKeepsDuties s) : ∃ t, step s = .next t := by
  obtain ⟨hprogress, -⟩ := hs
  by_contra hstuck
  obtain ⟨⟨q, hq, hbroken⟩, -⟩ := (step_refused_iff s).mp (exists_refused_iff.mpr (not_exists.mp hstuck))
  rw [hprogress q hq] at hbroken
  cases hbroken

/-! ### A run of a dutiful host ends (R151, D21) -/

/-- Steps still to be taken at most: two for each host action, one for a transaction in progress. -/
def State.stepsLeft (s : State) : Nat := 2 * s.host.length + if s.inProgress.isSome then 1 else 0

theorem State.stepsLeft_of_idle {s : State} (h : s.inProgress = none) : s.stepsLeft = 2 * s.host.length := by
  rw [State.stepsLeft, h]
  rfl

theorem State.stepsLeft_of_busy {s : State} {q : Request} (h : s.inProgress = some q) :
    s.stepsLeft = 2 * s.host.length + 1 := by
  rw [State.stepsLeft, h]
  rfl

theorem State.stepsLeft_le (s : State) : s.stepsLeft ≤ 2 * s.host.length + 1 := by
  unfold State.stepsLeft
  split <;> omega

theorem State.stepsLeft_eq_zero_iff (s : State) : s.stepsLeft = 0 ↔ s.inProgress = none ∧ s.host = [] := by
  unfold State.stepsLeft
  cases s.inProgress <;> simp

theorem State.passWait_host_length_le (s : State) : s.passWait.host.length ≤ s.host.length := by
  rcases s.passWait_host with ⟨rest, hhost, hrest⟩ | ⟨-, heq⟩
  · rw [hhost, hrest]
    exact Nat.le_succ _
  · rw [heq]

/-- Every step uses up at least one of them while there are any. -/
theorem stepsLeft_of_step {s t : State} (h : step s = .next t) : t.stepsLeft ≤ s.stepsLeft - 1 := by
  obtain ⟨hhead, rfl⟩ | ⟨-, q, hq, hserve⟩ | ⟨hidle, q, hhead, rfl⟩ | ⟨hidle, hhead | hnil, rfl⟩ := step_cases h
  case inl =>
    obtain ⟨rest, hhost⟩ := List.head?_eq_some_iff.mp hhead
    have hmost : 2 * s.host.length ≤ s.stepsLeft := Nat.le_add_right _ _
    rw [hhost, List.length_cons] at hmost
    rw [State.stepsLeft_of_idle s.takeReset_inProgress, State.takeReset_host, hhost, List.tail_cons]
    omega
  case inr.inl =>
    obtain ⟨i, r, -, -, -, rfl⟩ := (serve_eq_next q _ t).mp hserve
    have hpass := s.passWait_host_length_le
    rw [State.stepsLeft_of_busy hq, State.stepsLeft_of_idle (State.respond_inProgress _ r), State.respond_host]
    omega
  case inr.inr.inl =>
    obtain ⟨rest, hhost⟩ := List.head?_eq_some_iff.mp hhead
    rw [State.stepsLeft_of_busy (s.accept_inProgress q), State.stepsLeft_of_idle hidle, State.accept_host, hhost,
      List.tail_cons, List.length_cons]
    omega
  case inr.inr.inr.inl =>
    obtain ⟨rest, hhost⟩ := List.head?_eq_some_iff.mp hhead
    have hpassed : s.passWait.host = rest := by rw [State.passWait_of_wait hhost]
    rw [State.stepsLeft_of_idle (s.passWait_inProgress.trans hidle), State.stepsLeft_of_idle hidle, hpassed, hhost,
      List.length_cons]
    omega
  case inr.inr.inr.inr =>
    have hwait : s.host.head? ≠ some .wait := by simp [hnil]
    rw [State.passWait_of_head_ne_wait hwait, State.stepsLeft_of_idle hidle, hnil]
    rfl

/-- A dutiful host's run of steps enough takes every one of them. -/
theorem core_run_of_stepsLeft_le (k : Nat) (s : State) (hs : HostKeepsDuties s) (hk : s.stepsLeft ≤ k) :
    ∃ t, Sys2Proof.core.run k s = .next t ∧ t.stepsLeft = 0 := by
  induction k generalizing s with
  | zero => exact ⟨s, rfl, Nat.le_zero.mp hk⟩
  | succ k ih =>
    obtain ⟨t, hstep⟩ := exists_step_of_hostKeepsDuties hs
    have hleft := stepsLeft_of_step hstep
    rw [core_run_succ s t k hstep]
    exact ih t (hostKeepsDuties_of_step hs hstep) (by omega)

/-! ### A run answers requests in order (R40, R152) -/

/-- No reset and no wait stands among requests presented one after another. -/
theorem presentAll_head? (is : List Instr) :
    (presentAll is).head? ≠ some .reset ∧ (presentAll is).head? ≠ some .wait := by
  cases is <;> simp [presentAll]

/-- Two steps for an instruction that has a response: its request is taken, then answered. -/
theorem core_run_request {s : State} {i : Instr} {r : Response} {rest : List HostAction} (k : Nat)
    (hidle : s.inProgress = none) (hhost : s.host = .request (encodeRequest i) :: rest)
    (hreset : rest.head? ≠ some .reset) (hwait : rest.head? ≠ some .wait) (hwf : i.WellFormed s.params)
    (hresp : responseTo s.params i = some r) :
    Sys2Proof.core.run (k + 2) s
      = Sys2Proof.core.run k { s with host := rest, inProgress := none, responses := s.responses ++ [r] } := by
  have hserved := step_of_response (s := { s with inProgress := some (encodeRequest i), host := rest }) rfl hreset
    (decodeRequest_encodeRequest i) hwf hresp
  rw [State.passWait_of_head_ne_wait hwait] at hserved
  rw [core_run_succ _ _ (k + 1) (step_of_idle_request hidle hhost), core_run_succ _ _ k hserved]
  rfl

/-! ### The statements -/

/-- Settles O45 (R20, R81, R85, R87, D13): the one response a step can add is an instruction's, which has its shape. -/
theorem stepKeepsResponsesShaped : Obligations.StepKeepsResponsesShaped := by
  unfold Obligations.StepKeepsResponsesShaped
  intro s t hs hstep
  obtain ⟨hparams, hsame | ⟨q, i, r, -, -, hresp, hmore⟩⟩ := step_responses hstep
  · rwa [ResponsesShaped, hparams, hsame]
  · rw [ResponsesShaped, hparams, hmore, List.forall_mem_append, List.forall_mem_singleton]
    exact ⟨hs, responseShape_of_responseTo hresp⟩

/-- Settles O47 (R143 H1, H3, D3, D16): progress, then preservation. -/
theorem dutifulHostIsAlwaysServed : Obligations.DutifulHostIsAlwaysServed := by
  unfold Obligations.DutifulHostIsAlwaysServed
  intro s hs
  obtain ⟨t, hstep⟩ := exists_step_of_hostKeepsDuties hs
  exact ⟨t, hstep, hostKeepsDuties_of_step hs hstep⟩

/-- Settles O48 (R143 H1, H3, D3, D16): only serving can refuse, and it refuses exactly what is not served. -/
theorem refusedExactlyOutsideDuties : Obligations.RefusedExactlyOutsideDuties := by
  unfold Obligations.RefusedExactlyOutsideDuties
  exact step_refused_iff

/-- Settles O49 (R151, D21): the steps left at the start are at most the steps of the run. -/
theorem everyTransactionEnds : Obligations.EveryTransactionEnds := by
  unfold Obligations.EveryTransactionEnds
  intro s hs
  obtain ⟨t, hrun, hzero⟩ := core_run_of_stepsLeft_le _ s hs s.stepsLeft_le
  exact ⟨t, hrun, t.stepsLeft_eq_zero_iff.mp hzero⟩

/-- Settles O50 (R40, R152, D1, D20), by induction on the instructions presented. -/
theorem runAnswersEachRequestInOrder : Obligations.RunAnswersEachRequestInOrder := by
  unfold Obligations.RunAnswersEachRequestInOrder
  intro s is rs hidle hhost hwf hresp
  induction is generalizing s rs with
  | nil =>
    obtain rfl : rs = [] := by simpa using hresp.symm
    obtain ⟨P, ip, host, responses⟩ := s
    cases hidle
    cases hhost
    simp [Host.Core.run]
  | cons i is ih =>
    obtain ⟨hwf_i, hwf_is⟩ := List.forall_mem_cons.mp hwf
    obtain ⟨r, rs, rfl⟩ : ∃ r rs', rs = r :: rs' := by
      cases rs with
      | nil => cases hresp
      | cons r rs => exact ⟨r, rs, rfl⟩
    obtain ⟨hresp_i, hresp_is⟩ := List.cons.inj hresp
    obtain ⟨hreset, hwait⟩ := presentAll_head? is
    have htwo := core_run_request (rest := presentAll is) (2 * is.length) hidle hhost hreset hwait hwf_i hresp_i
    have hrest := ih { s with host := presentAll is, inProgress := none, responses := s.responses ++ [r] } rs rfl rfl
      hwf_is hresp_is
    rw [List.length_cons, Nat.mul_succ, htwo, hrest]
    simp [hidle]

/-- Settles O40 (R10, R11). -/
theorem instructionFrame : Obligations.InstructionFrame := by
  unfold Obligations.InstructionFrame
  intro i s t hexec
  obtain ⟨r, -, rfl⟩ := (exec_eq_next i s t).mp hexec
  exact ⟨rfl, rfl, rfl, r, rfl⟩

/-- Settles O41 (R24, R39). -/
theorem stepGivesAtMostOneResponse : Obligations.StepGivesAtMostOneResponse := by
  unfold Obligations.StepGivesAtMostOneResponse
  intro s t hstep
  obtain ⟨hparams, hsame | ⟨q, i, r, hq, hidle, -, hmore⟩⟩ := step_responses hstep
  · exact ⟨hparams, .inl hsame⟩
  · exact ⟨hparams, .inr ⟨⟨r, hmore⟩, by rw [hq, Option.isSome_some], hidle⟩⟩

/-- Settles O42 (R10, R40, D2, D18, D20): the response is the instruction's own under the parameters. -/
theorem responseIndependentOfHistory : Obligations.ResponseIndependentOfHistory := by
  unfold Obligations.ResponseIndependentOfHistory
  intro s s' t hparams hprogress hbusy hreset hreset' hstep
  obtain ⟨q, hq⟩ := Option.ne_none_iff_exists'.mp hbusy
  rw [step_inProgress s q hq hreset] at hstep
  obtain ⟨i, r, hdec, hwf, hresp, rfl⟩ := (serve_eq_next q _ t).mp hstep
  rw [State.passWait_params, hparams] at hwf hresp
  exact ⟨_, r, step_of_response (hprogress.symm.trans hq) hreset' hdec hwf hresp, by simp, by simp⟩

/-- Settles O43 (R125, R126, D10): the appended response is the instruction's own. -/
theorem errorsBelongToTheirOperation : Obligations.ErrorsBelongToTheirOperation := by
  unfold Obligations.ErrorsBelongToTheirOperation
  intro i s e hexec
  obtain ⟨r, hresp, heq⟩ := (exec_eq_next i s _).mp hexec
  rw [responses_of_respond_eq heq.symm] at hresp
  exact responseTo_eq_error hresp

/-- Settles O44 (R66, R125, D4). -/
theorem statusCodes : Obligations.StatusCodes := by
  unfold Obligations.StatusCodes
  refine ⟨fun _ => rfl, rfl, rfl, rfl, fun e e' h => ?_⟩
  match e, e', h with
  | .decode .sizeMismatch, .decode .sizeMismatch, _ => rfl
  | .timestamp .shortRecord, .timestamp .shortRecord, _ => rfl
  | .timestamp .missing, .timestamp .missing, _ => rfl

/-- Settles O39 (R26, R140, D7, D9, D11 to D13, D19). -/
theorem resetStateValues : Obligations.ResetStateValues := by
  unfold Obligations.ResetStateValues
  rw [State.reset_params]
  exact ⟨rfl, rfl, rfl, rfl, rfl, rfl, rfl, rfl, rfl, rfl, rfl, rfl, rfl, rfl, rfl, rfl, rfl⟩

/-- Settles O46 (logs 2, 5): nothing is in progress, to come or answered. -/
theorem resetIsSafe : Obligations.ResetIsSafe := by
  unfold Obligations.ResetIsSafe ResponsesShaped HostKeepsDuties
  simp

end Sys2Proof.Machine
